-- ==== Sys2Proof/Word.lean ====
section
/-! DEFINITION. The words of the spec: the request word and the fields of requests and frames. -/

namespace Sys2Proof

/-- A request word, `w[31:0]` (R80). -/
abbrev Word := BitVec 32
/-- A command code, 8 bits (R51, R81). -/
abbrev Code := BitVec 8
/-- An address of the display memory space, 6 bits (R50, R81). -/
abbrev Addr := BitVec 6
/-- The content of one display memory location, 4 bits (R50). -/
abbrev Nibble := BitVec 4
/-- A cell pattern, or the value of a 16-bit data frame (R81). -/
abbrev Pattern := BitVec 16
/-- The frame shift register, 25 bits (R25). -/
abbrev ShiftReg := BitVec 25

end Sys2Proof
end

