-- ==== Sys2Proof/Config.lean ====
section
/-! DEFINITION. The implementation parameters of 00_scope.md R6 and the admission rule R7. -/

namespace Sys2Proof

/-- `CELL_COUNT` (R6). The cell table is fixed, so this is no parameter (D17). -/
def cellCount : Nat := 10

/-- `CLUSTER_BASE`, the source's `firstClusterAddress` (R6). -/
def clusterBase : Nat := 0x29

/-- `PAD_BIT`, the value of a command frame's pad bit (R6, D15). -/
def padBit : Bool := false

/-- The parameters a build chooses (R6). `NS` and `NG` have the default `NP` (R6, D13, D14). `F_CLK` is in whole hertz and `T_PHASE_MIN` in whole nanoseconds
(DESIGN CHOICE, log entry 2: safe). -/
structure Params where
  clusterSize  : Nat := 3
  clusterCount : Nat := 3
  np           : Nat := 2
  ns           : Nat := np
  ng           : Nat := np
  fClkHz       : Nat := 1000000
  tPhaseMinNs  : Nat := 2000
  deriving DecidableEq, Repr

/-- The admission rule R7, line by line. The bound `clusterCount ≤ 11` is the range of R6 and D18; the address
inequality of R7 alone would admit 12 (DEDUCED, log entry 3: safe). -/
abbrev Params.Admitted (p : Params) : Prop :=
  2 ≤ p.np
  ∧ 0 < p.fClkHz
  ∧ p.tPhaseMinNs * p.fClkHz ≤ p.np * 1000000000
  ∧ 1 ≤ p.ns ∧ 1 ≤ p.ng
  ∧ (p.clusterSize = 1 ∨ p.clusterSize = 2 ∨ p.clusterSize = 3 ∨ p.clusterSize = 4)
  ∧ p.clusterCount ≤ 11
  ∧ p.clusterCount * p.clusterSize ≤ 16
  ∧ (p.clusterCount = 0 ∨ clusterBase + 2 * (p.clusterCount - 1) ≤ 0x3F)
  ∧ 0x28 ≤ clusterBase

/-- A configuration is a set of parameters with the proof that R7 admits it: for a set that R7 does not admit
"the model has no instance" (R7). -/
structure Config where
  params   : Params
  admitted : params.Admitted
  deriving DecidableEq, Repr

namespace Config

/-- `CLUSTER_SIZE` (R6). -/
def clusterSize (c : Config) : Nat := c.params.clusterSize
/-- `CLUSTER_COUNT` (R6). -/
def clusterCount (c : Config) : Nat := c.params.clusterCount
/-- `NP`, the cycles of each serial-clock phase (R6). -/
def np (c : Config) : Nat := c.params.np
/-- `NS`, the cycles of the setup phase (R6). -/
def ns (c : Config) : Nat := c.params.ns
/-- `NG`, the cycles of the gap (R6). -/
def ng (c : Config) : Nat := c.params.ng
/-- `POINT_COUNT = CLUSTER_COUNT * CLUSTER_SIZE` (R6, R167). -/
def pointCount (c : Config) : Nat := c.clusterCount * c.clusterSize

/-- The default configuration of R6 (`F_CLK`, which has no default, at 1 MHz: log entry 2). -/
def default : Config := ⟨{}, by decide⟩

end Config

end Sys2Proof
end

