-- ==== Sys2Proof/Syntax.lean ====
section
/-! DEFINITION. The instructions (one constructor per row of spec/opcode_table.json), the frames a request expands
to, and the two channels an instruction arrives on. -/

namespace Sys2Proof

/-- The frames of R32. `Data(addr, value, w)` has one constructor for each width the spec allows (R56). -/
inductive Frame where
  /-- `Cmd(code)`. -/
  | cmd (code : Code)
  /-- `Data(addr, value, 4)`. -/
  | data4 (addr : Addr) (value : Nibble)
  /-- `Data(addr, value, 16)`. -/
  | data16 (addr : Addr) (value : Pattern)
  deriving DecidableEq, Repr

/-- What the machine executes. The first eleven constructors are the requests of R80 with the reserved words of R84
and R85; the next seven are the pseudo-instructions of R92, other names of a core request's word; the last three are
the wire frames of R87 and R88, which the receiver executes (log entries 8 and 9). -/
inductive Instr where
  /-- `CMD code` (R142). -/
  | cmd (code : Code)
  /-- `DATA4 addr, nib` (R143). -/
  | data4 (addr : Addr) (nib : Nibble)
  /-- `DATA16 addr, value` (R144). -/
  | data16 (addr : Addr) (value : Pattern)
  /-- `DATAW` with `WSEL = 01`, a reserved width (R85, R223). -/
  | dataw01
  /-- `DATAW` with `WSEL = 10`, a reserved width (R85, R223). -/
  | dataw10
  /-- `CELL pos, pattern` (R169). -/
  | cell (pos : BitVec 4) (pattern : Pattern)
  /-- `POINT index, on` (R170). -/
  | point (index : BitVec 4) (on : Bool)
  /-- `RSTPTS` (R190). -/
  | rstpts
  /-- `SETPT index` (R191). -/
  | setpt (index : BitVec 4)
  /-- `FILL on` (R192). -/
  | fill (on : Bool)
  /-- `RESERVED`, `OP = 111` (R84, R223). -/
  | reserved
  /-- `SYSDIS` = `CMD 0x00` (R92). -/
  | sysdis
  /-- `SYSEN` = `CMD 0x01` (R92). -/
  | sysen
  /-- `LCDOFF` = `CMD 0x02` (R92). -/
  | lcdoff
  /-- `LCDON` = `CMD 0x03` (R92). -/
  | lcdon
  /-- `CLEAR` = `FILL off` (R92). -/
  | clear
  /-- `LAMPTEST` = `FILL on` (R92). -/
  | lamptest
  /-- `DRAW pos, bits` = `CELL pos, bits` (R92). -/
  | draw (pos : BitVec 4) (bits : Pattern)
  /-- A command frame received on the wire (R87). -/
  | frameCmd (code : Code)
  /-- A data frame of width 4 received on the wire (R88). -/
  | frameData4 (addr : Addr) (value : Nibble)
  /-- A data frame of width 16 received on the wire (R88). -/
  | frameData16 (addr : Addr) (value : Pattern)
  deriving DecidableEq, Repr

/-- What an instruction arrives as: a word on the request port (R80), or the bits between a chip-select assertion and
its deassertion, in wire order (R62). -/
inductive Fetched where
  | request (w : Word)
  | wire (bits : List Bool)
  deriving DecidableEq, Repr

end Sys2Proof
end

