-- ==== Sys2Proof/Machine/State.lean ====
section
/-! DEFINITION. The state of the block (10_state.md), the receiver kept beside it (20_memory.md R61), the inputs, the
reasons to stop, and the state after reset. -/

namespace Sys2Proof.Machine

/-- The serializer's phase, `S.phase` (R23). -/
inductive Phase where
  /-- No frame in progress; a request can be accepted. -/
  | idle
  /-- Chip-select asserted, waiting `NS` cycles before the first bit. -/
  | setup
  /-- First half of a bit: clock low, data set. -/
  | low
  /-- Second half of a bit: clock high. -/
  | high
  /-- Chip-select deasserted after a frame, waiting `NG` cycles. -/
  | gap
  deriving DecidableEq, Repr

/-- The error causes of R221. Codes 6 and 7 are "never produced" and have no constructor (log entry 15). -/
inductive Cause where
  | none
  | reservedOp
  | badWidth
  | addrRange
  | badCell
  | badPoint
  deriving DecidableEq, Repr

/-- The levels on the block's input ports in one cycle (R20), and the environment's power-loss event (R67). -/
structure PortIn where
  rst       : Bool
  reqValid  : Bool
  reqWord   : Word
  powerLoss : Bool
  deriving DecidableEq, Repr

/-- The display memory of the receiver, `RX.mem[0..63]` (R50, R61): a list of (address, content) cells, addresses
strictly rising, each content a 4-bit value. A location that is not listed is unknown, the spec's `none`. -/
abbrev Memory := List Host.Cell

/-- The receiver, `RX` (R61). -/
structure Rx where
  /-- `RX.mem`. -/
  mem      : Memory
  /-- `RX.sys`: the system oscillator on, off or unknown. -/
  sys      : Option Bool
  /-- `RX.lcd`: the LCD drive on, off or unknown. -/
  lcd      : Option Bool
  /-- `RX.refused`: the receiver got a frame the model gives no meaning. -/
  refused  : Bool
  /-- `RX.buf`: the bits of the frame now being received. -/
  buf      : List Bool
  /-- `RX.prev`, first part: `cs_n` in the previous cycle. -/
  prevCsN  : Bool
  /-- `RX.prev`, second part: `sclk` in the previous cycle. -/
  prevSclk : Bool
  deriving DecidableEq, Repr

/-- The machine: the block's state `S` (R23 to R29), the receiver beside it (R61), the configuration it was built with
(R6; no step changes it, R35, R258; log entry 1) and the inputs of this cycle and the following ones (R111; log
entry 4). -/
structure State where
  cfg    : Config
  phase  : Phase
  timer  : Nat
  shreg  : ShiftReg
  nbits  : Nat
  pend   : List Frame
  csN    : Bool
  sclk   : Bool
  sdata  : Bool
  err    : Bool
  cause  : Cause
  rx     : Rx
  inputs : List PortIn
  deriving DecidableEq, Repr

/-- Nothing stops this machine with a fault: "No block behaviour is `stuck`" (93_implementation_defined.md section 3),
and a failed request is a next state (R222). The type has no constructor (log entry 17). -/
inductive Fault
  deriving DecidableEq, Repr

/-- Why an instruction has no meaning. -/
inductive Refusal where
  /-- Raised by an arm of `exec` whose instruction has no meaning yet. Safe: nothing can be proved of it. No arm
  raises it in this model. -/
  | notModelled (mnemonic : String)
  deriving DecidableEq, Repr

/-- The receiver at the peripheral's power-on (R61). -/
def Rx.powerOn : Rx :=
  { mem := [], sys := none, lcd := none, refused := false, buf := [], prevCsN := true, prevSclk := true }

/-- The machine built with configuration `c`, right after reset: `ResetState` of R250, the receiver at its power-on
values (the block's reset does not touch it, R250), and no input scheduled. -/
def State.resetWith (c : Config) : State :=
  { cfg := c, phase := .idle, timer := 0, shreg := 0#25, nbits := 0, pend := [], csN := true, sclk := true,
    sdata := false, err := false, cause := .none, rx := Rx.powerOn, inputs := [] }

/-- The machine in the default configuration of R6, right after reset (R250, R251; log entry 13). -/
def State.reset : State := State.resetWith Config.default

end Sys2Proof.Machine
end

