-- ==== Sys2Proof/Machine/Flags.lean ====
section
/-! DEFINITION. The flags and derived outputs of the block (10_state.md section 4). -/

namespace Sys2Proof.Machine

/-- No request offered and no event: what a cycle reads when no input is listed (DESIGN CHOICE, log entry 4). -/
def PortIn.quiet : PortIn := { rst := false, reqValid := false, reqWord := 0#32, powerLoss := false }

/-- The host offers the word `w` in this cycle (R256). -/
def PortIn.offer (w : Word) : PortIn := { rst := false, reqValid := true, reqWord := w, powerLoss := false }

/-- The inputs of this cycle, `in_k` (R111). -/
def State.input (s : State) : PortIn := s.inputs.headD PortIn.quiet

/-- `busy` (R31). -/
def State.busy (s : State) : Bool := decide (s.phase ≠ .idle)

/-- `req_ready` (R30). -/
def State.reqReady (s : State) : Bool := decide (s.phase = .idle) && !s.input.rst

/-- The 3-bit code of a cause (R221). -/
def Cause.code : Cause → BitVec 3
  | .none => 0#3
  | .reservedOp => 1#3
  | .badWidth => 2#3
  | .addrRange => 3#3
  | .badCell => 4#3
  | .badPoint => 5#3

/-- The status word: bits 7:5 zero, `CAUSE` in 4:2, `ERR` in 1, `BUSY` in 0 (R33). -/
def State.status (s : State) : BitVec 8 :=
  0#3 ++ s.cause.code ++ BitVec.ofBool s.err ++ BitVec.ofBool s.busy

/-- The block's output ports in one cycle (R20). -/
structure PortOut where
  reqReady : Bool
  busy     : Bool
  status   : BitVec 8
  csN      : Bool
  sclk     : Bool
  sdata    : Bool
  deriving DecidableEq, Repr

/-- The outputs in the cycle of state `s` (R20, R111). -/
def State.outputs (s : State) : PortOut :=
  { reqReady := s.reqReady, busy := s.busy, status := s.status, csN := s.csN, sclk := s.sclk, sdata := s.sdata }

end Sys2Proof.Machine
end

