-- ==== Sys2Proof/WellFormed.lean ====
section
/-! DEFINITION. The checks on an instruction that its operand widths do not already make. -/

namespace Sys2Proof

/-- A frame stays inside the display memory: `a + w/4 <= 64` (R64, R69). -/
def Frame.inRange : Frame → Bool
  | .cmd _ => true
  | .data4 addr _ => decide (addr.toNat + 1 ≤ 64)
  | .data16 addr _ => decide (addr.toNat + 4 ≤ 64)

/-- Every operand of a request that fits its field is a legal operand (R91: a value out of the configuration's range
is encoded and reported at run time). A data frame on the wire is a frame only if it does not pass `0x3F` (R64, R65). -/
def Instr.wellFormed : Instr → Bool
  | .cmd _ => true
  | .data4 _ _ => true
  | .data16 _ _ => true
  | .dataw01 => true
  | .dataw10 => true
  | .cell _ _ => true
  | .point _ _ => true
  | .rstpts => true
  | .setpt _ => true
  | .fill _ => true
  | .reserved => true
  | .sysdis => true
  | .sysen => true
  | .lcdoff => true
  | .lcdon => true
  | .clear => true
  | .lamptest => true
  | .draw _ _ => true
  | .frameCmd _ => true
  | .frameData4 addr value => (Frame.data4 addr value).inRange
  | .frameData16 addr value => (Frame.data16 addr value).inRange

end Sys2Proof
end

