-- ==== Sys2Proof/Decode.lean ====
section
/-! DEFINITION. The decoder of requests (R82) and of wire frames (R63 to R65), and after it the encoder, written from
the field table of R81 and the frame tables of R87 and R88. -/

namespace Sys2Proof

/-- `BitsMSB(v, n)`: the bits of `v`, most significant first (R9). -/
def bitsMSB {n : Nat} (v : BitVec n) : List Bool :=
  (List.range n).map v.getMsbD

/-- A bit sequence read most significant first as an `n`-bit value (R63, R64). -/
def readMSB (n : Nat) (bits : List Bool) : BitVec n :=
  (BitVec.ofBoolListBE bits).setWidth n

/-- Why a bit sequence on the wire is no frame (R65: "wrong length, unknown prefix, no bits, or a data frame that
would pass `0x3F`"). -/
inductive DecodeError where
  /-- Fewer than three bits: there is no whole prefix. -/
  | noPrefix
  /-- The first three bits are neither `100` nor `101`. -/
  | unknownPrefix
  /-- A known prefix, and a length that no frame with it has. -/
  | wrongLength
  /-- A data frame whose last location would lie above `0x3F`. -/
  | passesEnd
  deriving DecidableEq, Repr

/-! ### Requests -/

/-- `OP = 001`: the width is selected by `WSEL = w[23:22]` (R82). -/
def decodeDataRequest (w : Word) : Instr :=
  match w.getLsbD 23, w.getLsbD 22 with
  | false, false => .data4 (w.extractLsb' 16 6) (w.extractLsb' 0 4)
  | true,  true  => .data16 (w.extractLsb' 16 6) (w.extractLsb' 0 16)
  | false, true  => .dataw01
  | true,  false => .dataw10

/-- `Decode(w)` of R82, by `OP = w[31:29]`. It is total, and it reads no bit that R81 lists as unused (R83). -/
def decodeRequest (w : Word) : Instr :=
  match w.getLsbD 31, w.getLsbD 30, w.getLsbD 29 with
  | false, false, false => .cmd (w.extractLsb' 0 8)
  | false, false, true  => decodeDataRequest w
  | false, true,  false => .cell (w.extractLsb' 16 4) (w.extractLsb' 0 16)
  | false, true,  true  => .point (w.extractLsb' 0 4) (w.getLsbD 8)
  | true,  false, false => .rstpts
  | true,  false, true  => .setpt (w.extractLsb' 0 4)
  | true,  true,  false => .fill (w.getLsbD 8)
  | true,  true,  true  => .reserved

/-! ### Wire frames -/

/-- The bits after the prefix `100`: an 8-bit code and the pad bit, which is ignored (R63). -/
def decodeCommandPayload (rest : List Bool) : Except DecodeError Instr :=
  if rest.length = 9 then .ok (.frameCmd (readMSB 8 (rest.take 8))) else .error .wrongLength

/-- The bits after the prefix `101`: a 6-bit address and a value of 4 or 16 bits (R64). -/
def decodeDataPayload (rest : List Bool) : Except DecodeError Instr :=
  let addr : Addr := readMSB 6 (rest.take 6)
  if rest.length = 10 then
    if addr.toNat + 1 ≤ 64 then .ok (.frameData4 addr (readMSB 4 (rest.drop 6))) else .error .passesEnd
  else if rest.length = 22 then
    if addr.toNat + 4 ≤ 64 then .ok (.frameData16 addr (readMSB 16 (rest.drop 6))) else .error .passesEnd
  else .error .wrongLength

/-- Which frame a received bit sequence is: told "purely by this prefix" (R89), then by its length (R63, R64). -/
def decodeFrame : List Bool → Except DecodeError Instr
  | true :: false :: false :: rest => decodeCommandPayload rest
  | true :: false :: true :: rest => decodeDataPayload rest
  | true :: true :: _ :: _ => .error .unknownPrefix
  | false :: _ :: _ :: _ => .error .unknownPrefix
  | [] => .error .noPrefix
  | [_] => .error .noPrefix
  | [_, _] => .error .noPrefix

/-- The decoder. Every request word decodes (R82); a wire sequence that is no frame is rejected by name. -/
def decode : Fetched → Except DecodeError Instr
  | .request w => .ok (decodeRequest w)
  | .wire bits => decodeFrame bits

/-! ### The encoder -/

/-- `FrameBits(f)`, the frame's bits in wire order (R140, R141). -/
def frameBits : Frame → List Bool
  | .cmd code => [true, false, false] ++ bitsMSB code ++ [padBit]
  | .data4 addr value => [true, false, true] ++ bitsMSB addr ++ bitsMSB value
  | .data16 addr value => [true, false, true] ++ bitsMSB addr ++ bitsMSB value

/-- A field put at bit `lo` of a request word, zeros elsewhere (R8). -/
def field {n : Nat} (lo : Nat) (v : BitVec n) : Word := v.setWidth 32 <<< lo

/-- The word of `CMD`: `OP = 000`, `CODE` at 7:0 (R81). -/
def encodeCmd (code : Code) : Word := field 29 0b000#3 ||| field 0 code

/-- The word of a data request: `OP = 001`, `WSEL` at 23:22, `ADDR` at 21:16, and the value from bit 0 (R81). -/
def encodeData {n : Nat} (wsel : BitVec 2) (addr : Addr) (value : BitVec n) : Word :=
  field 29 0b001#3 ||| field 22 wsel ||| field 16 addr ||| field 0 value

/-- The word of `CELL`: `OP = 010`, `POS` at 19:16, `PATTERN` at 15:0 (R81). -/
def encodeCell (pos : BitVec 4) (pattern : Pattern) : Word :=
  field 29 0b010#3 ||| field 16 pos ||| field 0 pattern

/-- The word of `FILL`: `OP = 110`, `ON` at 8 (R81). -/
def encodeFill (on : Bool) : Word := field 29 0b110#3 ||| field 8 (BitVec.ofBool on)

/-- The word or the wire bits of an instruction, unused bits 0 (R81, R91, R92). -/
def encode : Instr → Fetched
  | .cmd code => .request (encodeCmd code)
  | .data4 addr nib => .request (encodeData 0b00#2 addr nib)
  | .data16 addr value => .request (encodeData 0b11#2 addr value)
  | .dataw01 => .request (field 29 0b001#3 ||| field 22 0b01#2)
  | .dataw10 => .request (field 29 0b001#3 ||| field 22 0b10#2)
  | .cell pos pattern => .request (encodeCell pos pattern)
  | .point index on => .request (field 29 0b011#3 ||| field 8 (BitVec.ofBool on) ||| field 0 index)
  | .rstpts => .request (field 29 0b100#3)
  | .setpt index => .request (field 29 0b101#3 ||| field 0 index)
  | .fill on => .request (encodeFill on)
  | .reserved => .request (field 29 0b111#3)
  | .sysdis => .request (encodeCmd 0x00#8)
  | .sysen => .request (encodeCmd 0x01#8)
  | .lcdoff => .request (encodeCmd 0x02#8)
  | .lcdon => .request (encodeCmd 0x03#8)
  | .clear => .request (encodeFill false)
  | .lamptest => .request (encodeFill true)
  | .draw pos bits => .request (encodeCell pos bits)
  | .frameCmd code => .wire (frameBits (.cmd code))
  | .frameData4 addr value => .wire (frameBits (.data4 addr value))
  | .frameData16 addr value => .wire (frameBits (.data16 addr value))

/-- The expansion column of R92: the core request a pseudo-instruction stands for. Every other instruction is its own
core form. -/
def Instr.core : Instr → Instr
  | .sysdis => .cmd 0x00#8
  | .sysen => .cmd 0x01#8
  | .lcdoff => .cmd 0x02#8
  | .lcdon => .cmd 0x03#8
  | .clear => .fill false
  | .lamptest => .fill true
  | .draw pos bits => .cell pos bits
  | .cmd code => .cmd code
  | .data4 addr nib => .data4 addr nib
  | .data16 addr value => .data16 addr value
  | .dataw01 => .dataw01
  | .dataw10 => .dataw10
  | .cell pos pattern => .cell pos pattern
  | .point index on => .point index on
  | .rstpts => .rstpts
  | .setpt index => .setpt index
  | .fill on => .fill on
  | .reserved => .reserved
  | .frameCmd code => .frameCmd code
  | .frameData4 addr value => .frameData4 addr value
  | .frameData16 addr value => .frameData16 addr value

/-- The bits of a request word that R81 lists as its operation, width selector or operand; every other bit is unused
(R83). A wire frame has no request word. -/
def Instr.usedBits : Instr → Word
  | .cmd _ => 0xE00000FF#32
  | .data4 _ _ => 0xE0FF000F#32
  | .data16 _ _ => 0xE0FFFFFF#32
  | .dataw01 => 0xE0C00000#32
  | .dataw10 => 0xE0C00000#32
  | .cell _ _ => 0xE00FFFFF#32
  | .point _ _ => 0xE000010F#32
  | .rstpts => 0xE0000000#32
  | .setpt _ => 0xE000000F#32
  | .fill _ => 0xE0000100#32
  | .reserved => 0xE0000000#32
  | .sysdis => 0xE00000FF#32
  | .sysen => 0xE00000FF#32
  | .lcdoff => 0xE00000FF#32
  | .lcdon => 0xE00000FF#32
  | .clear => 0xE0000100#32
  | .lamptest => 0xE0000100#32
  | .draw _ _ => 0xE00FFFFF#32
  | .frameCmd _ => 0#32
  | .frameData4 _ _ => 0#32
  | .frameData16 _ _ => 0#32

/-! ### The opcode table's numbering -/

/-- What a number of the opcode table stands for. A row of 32 bits is a request word; the rows of 12, 13 and 25 bits
are wire frames, whose number has wire bit 0 as its most significant bit (R93). The table gives the 25-bit row as many
whole bytes as a request; a number `101` in bits 24 to 22 with zeros above them is that row, since a request row's
unused bits are 0 (R91). DESIGN CHOICE, log entry 10: it concerns this function and `withFetchWord` only. -/
def fetchedOfTable (nbits w : Nat) : Fetched :=
  if nbits ≤ 16 then
    if w / 2 ^ 12 = 0 then .wire (bitsMSB (BitVec.ofNat 12 w))
    else if w / 2 ^ 13 = 0 then .wire (bitsMSB (BitVec.ofNat 13 w))
    else .wire (bitsMSB (BitVec.ofNat 16 w))
  else if nbits < 32 ∨ w / 2 ^ 22 = 0b101 then .wire (bitsMSB (BitVec.ofNat 25 w))
  else .request (BitVec.ofNat 32 w)

/-- The instruction the decoder reads from a number of the opcode table. -/
def decodeTableWord (nbits w : Nat) : Option Instr :=
  match decode (fetchedOfTable nbits w) with
  | .ok i => some i
  | .error _ => none

end Sys2Proof
end

