-- ==== Sys2Proof/Machine/Operands.lean ====
section
/-! DEFINITION. Operand forms: the display memory map (42_memory_map.md), how a frame fills the shift register (R119),
and how a data value falls on locations (R54). -/

namespace Sys2Proof.Machine

/-! ### The memory map -/

/-- `CELL_ADDR[0..9]` (R6, R160). -/
def cellAddrTable : List Addr :=
  [0x24#6, 0x20#6, 0x1C#6, 0x18#6, 0x14#6, 0x10#6, 0x0C#6, 0x08#6, 0x04#6, 0x00#6]

/-- `CellAddr(p)`, defined for the positions of the table only (R160). -/
def cellAddr? (pos : Nat) : Option Addr := cellAddrTable[pos]?

/-- The address of cluster `k`: `CLUSTER_BASE + 2*k` (R163, R190). -/
def clusterAddrOf (k : Nat) : Addr := BitVec.ofNat 6 (clusterBase + 2 * k)

/-- `ClusterAddr(i)`: floor division by the cluster size, times 2, plus the base (R163). -/
def clusterAddr (c : Config) (i : Nat) : Addr := BitVec.ofNat 6 (i / c.clusterSize * 2 + clusterBase)

/-- `RawBit(i) = 1 << ((i + CLUSTER_SIZE) mod CLUSTER_SIZE)` (R164). -/
def rawBit (c : Config) (i : Nat) : Nibble := 1#4 <<< ((i + c.clusterSize) % c.clusterSize)

/-- `PackBit(r)`, the bit-packing quirk (R165). -/
def packBit (r : Nibble) : Nibble := if r ≠ 2#4 then r ^^^ 5#4 else r

/-- `PointMap(i)`: the address and the value of an indicator (R166). -/
def pointMap (c : Config) (i : Nat) : Addr × Nibble := (clusterAddr c i, packBit (rawBit c i))

/-! ### Frames in the shift register -/

/-- The bit sequence left-aligned in 25 bits, zeros below it (R119). -/
def leftAlign (bits : List Bool) : ShiftReg := readMSB 25 bits <<< (25 - bits.length)

/-! ### Data values on locations -/

/-- The nibbles of a 16-bit value, from the most significant end (R54, R64). -/
def nibbles (v : Pattern) : List Nibble :=
  [v.extractLsb' 12 4, v.extractLsb' 8 4, v.extractLsb' 4 4, v.extractLsb' 0 4]

end Sys2Proof.Machine
end

