-- ==== Sys2Proof/Machine/Ops.lean ====
section
/-! DEFINITION. The shared operations: reading and writing the display memory, what a frame does to the receiver,
starting a frame, recording an error (the only exception the block has), accepting a request, and reset. -/

namespace Sys2Proof.Machine

/-- The three outcomes of a step, for this machine. -/
abbrev Result := Host.Outcome State Fault Refusal

/-- Go on from a next state; a stop stays. -/
def Result.andThen (r : Result) (f : State → Result) : Result :=
  match r with
  | .next s => f s
  | .fault x => .fault x
  | .refused x => .refused x

/-! ### Display memory -/

/-- What an unlisted location reads as: unknown, the spec's `none` (R61). -/
def Memory.unlisted : Option Nibble := none

/-- The content of location `a`: a known nibble or unknown (R12, R61). -/
def Memory.read : Memory → Nat → Option Nibble
  | [], _ => Memory.unlisted
  | (b, x) :: rest, a => if b = a then some (x.setWidth 4) else Memory.read rest a

/-- Put a cell in front of a memory; an unknown content is not listed. -/
def Memory.consCell (a : Nat) (v : Option Nibble) (m : Memory) : Memory :=
  match v with
  | some n => (a, n.setWidth 8) :: m
  | none => m

/-- Set location `a` to a known nibble or to unknown, keeping the list sorted and free of unknown entries. -/
def Memory.write : Memory → Nat → Option Nibble → Memory
  | [], a, v => Memory.consCell a v []
  | (b, x) :: rest, a, v =>
    if b < a then (b, x) :: Memory.write rest a v
    else if b = a then Memory.consCell a v rest
    else Memory.consCell a v ((b, x) :: rest)

/-- Set the locations from `a` on to the given contents, one each (R64). -/
def Memory.writeFrom : Memory → Nat → List (Option Nibble) → Memory
  | m, _, [] => m
  | m, a, v :: vs => Memory.writeFrom (m.write a v) (a + 1) vs

/-- The canonical form: addresses strictly rising, inside the 64 locations, every content a 4-bit value. -/
abbrev Memory.wf (m : Memory) : Prop :=
  m.Pairwise (fun x y => x.1 < y.1) ∧ ∀ x ∈ m, x.1 < 64 ∧ x.2.toNat < 16

/-! ### The receiver -/

/-- What `MemWrite` stores for a nibble: the nibble while the oscillator is known to be on, else unknown (R64). -/
def Rx.stored (rx : Rx) (n : Nibble) : Option Nibble := if rx.sys = some true then some n else none

/-- `MemWrite(a, n, v)` for the nibbles of `v` in location order (R64). -/
def Rx.memWrite (rx : Rx) (a : Nat) (nibs : List Nibble) : Rx :=
  { rx with mem := rx.mem.writeFrom a (nibs.map rx.stored) }

/-- On a malformed frame the receiver forgets everything (R65). -/
def Rx.forget (rx : Rx) : Rx := { rx with mem := [], sys := none, lcd := none }

/-- The effect of a command code (R63). A code without a meaning marks the run and the receiver goes on (log
entry 18). -/
def Rx.command (rx : Rx) (code : Code) : Rx :=
  if code = 0x00#8 then { rx with sys := some false, mem := [] }
  else if code = 0x01#8 then { rx with sys := some true }
  else if code = 0x02#8 then { rx with lcd := some false }
  else if code = 0x03#8 then { rx with lcd := some true }
  else { rx with refused := true }

/-- `RxApply(f)` (R69). A frame that would pass `0x3F` is malformed (R65); the block emits none. -/
def Rx.apply (rx : Rx) (f : Frame) : Rx :=
  match f with
  | .cmd code => rx.command code
  | .data4 addr value => if f.inRange then rx.memWrite addr.toNat [value] else rx.forget
  | .data16 addr value => if f.inRange then rx.memWrite addr.toNat (nibbles value) else rx.forget

/-- The receiver samples the lines of the new cycle: the buffer is emptied when chip-select is asserted, and takes the
data line at a rising clock edge while chip-select is asserted (R62). -/
def Rx.sample (rx : Rx) (csN sclk sdata : Bool) : Rx :=
  let started := if rx.prevCsN && !csN then [] else rx.buf
  { rx with buf := if !csN && !rx.prevSclk && sclk then started ++ [sdata] else started }

/-- Chip-select was asserted in the previous cycle and is deasserted now (R62). -/
def Rx.frameEnds (rx : Rx) (csN : Bool) : Bool := !rx.prevCsN && csN

/-- `RX.prev <- (cs_n, sclk)` (R62). -/
def Rx.remember (rx : Rx) (csN sclk : Bool) : Rx := { rx with prevCsN := csN, prevSclk := sclk }

/-- The peripheral loses power: every field but `RX.refused` takes its power-on value (R67). -/
def Rx.losePower (rx : Rx) : Rx := { Rx.powerOn with refused := rx.refused }

/-- Replace the receiver. -/
def State.setRx (s : State) (rx : Rx) : State := { s with rx := rx }

/-! ### Frames and errors -/

/-- `Load(f)`: the frame's bits left-aligned in the shift register, and their number (R119). -/
def State.load (s : State) (f : Frame) : State :=
  { s with shreg := leftAlign (frameBits f), nbits := (frameBits f).length }

/-- `Start(f, fs)`: assert chip-select and begin frame `f`, with `fs` still to follow (R114). -/
def State.start (s : State) (f : Frame) (fs : List Frame) : State :=
  { s.load f with pend := fs, csN := false, phase := .setup, timer := s.cfg.ns - 1 }

/-- `RecordError(c)`: taking the only exception the block has. It sets the sticky flag and the cause if no error is
recorded yet, and changes nothing else; there is no handler and no return (R222, R226). -/
def State.recordError (s : State) (c : Cause) : State :=
  if s.err then s else { s with err := true, cause := c }

/-- An expansion result: `Ok(frames)` or `Err(cause)` (R11, R82). -/
inductive Expansion where
  | ok (frames : List Frame)
  | err (cause : Cause)
  deriving DecidableEq, Repr

/-- What the accepting edge does with an expansion (R113): record its error (R222), nothing for an empty one (R227),
or start its first frame (R114). -/
def State.accept (s : State) (e : Expansion) : State :=
  match e with
  | .err c => s.recordError c
  | .ok [] => s
  | .ok (f :: fs) => s.start f fs

/-- A request with expansion `e` is on the request port at this edge. It is accepted exactly when `req_ready` is 1
(R30); otherwise it waits and has no effect (R124, R256). -/
def offer (e : Expansion) (s : State) : Result :=
  if s.reqReady then .next (s.accept e) else .next s

/-- A whole frame reaches the receiver, and nothing else changes (R57, R69). -/
def deliver (f : Frame) (s : State) : Result := .next (s.setRx (s.rx.apply f))

/-! ### Reset -/

/-- `ResetState`: every field of the block, and none of the receiver or the configuration (R250). -/
def State.resetBlock (s : State) : State :=
  { s with phase := .idle, timer := 0, shreg := 0#25, nbits := 0, pend := [], csN := true, sclk := true,
           sdata := false, err := false, cause := .none }

end Sys2Proof.Machine
end

