-- ==== Sys2Proof/Machine/MemoryMap.lean ====
section
/-! DEFINITION. The requests of the display memory map: CELL and POINT (42_memory_map.md). -/

namespace Sys2Proof.Machine

/-- `Expand(CELL(pos, pattern))`: a position outside the cell table is an error (R169). -/
def expandCell (pos : BitVec 4) (pattern : Pattern) : Expansion :=
  match cellAddr? pos.toNat with
  | none => .err .badCell
  | some a => .ok [.data16 a pattern]

/-- `Expand(POINT(index, on))`: a no-op without indicators, an error for an index outside them, else one write of the
whole cluster location (R170). -/
def expandPoint (c : Config) (index : BitVec 4) (on : Bool) : Expansion :=
  if c.clusterCount = 0 then .ok []
  else if index.toNat ≥ c.pointCount then .err .badPoint
  else
    let (a, v) := pointMap c index.toNat
    .ok [.data4 a (if on then v else 0#4)]

/-- `CELL pos, pattern` (R169). -/
def execCell (pos : BitVec 4) (pattern : Pattern) (s : State) : Result := offer (expandCell pos pattern) s

/-- `POINT index, on` (R170). -/
def execPoint (index : BitVec 4) (on : Bool) (s : State) : Result := offer (expandPoint s.cfg index on) s

end Sys2Proof.Machine
end

