-- ==== Sys2Proof/Machine/Controller.lean ====
section
/-! DEFINITION. The controller operations: RSTPTS, SETPT, FILL (43_controller_ops.md). -/

namespace Sys2Proof.Machine

/-- The frames of `RSTPTS`: 0 to every cluster, in ascending address order (R190). -/
def clearFrames (c : Config) : List Frame :=
  (List.range c.clusterCount).map fun k => .data4 (clusterAddrOf k) 0#4

/-- `Expand(RSTPTS)` (R190). -/
def expandRstpts (c : Config) : Expansion := .ok (clearFrames c)

/-- `Expand(SETPT(index))`: the frames of `RSTPTS`, then those of `POINT index, on` (R191). The inner expansion is
never an error here, so its arm for one gives that error back. -/
def expandSetpt (c : Config) (index : BitVec 4) : Expansion :=
  if c.clusterCount = 0 then .ok []
  else if index.toNat ≥ c.pointCount then .err .badPoint
  else
    match expandPoint c index true with
    | .ok fs => .ok (clearFrames c ++ fs)
    | .err e => .err e

/-- `Expand(FILL(on))`: every cell, in ascending address order (R192). -/
def expandFill (on : Bool) : Expansion :=
  .ok (cellAddrTable.reverse.map fun a => .data16 a (if on then 0xFFFF#16 else 0x0000#16))

/-- `RSTPTS` (R190). -/
def execRstpts (s : State) : Result := offer (expandRstpts s.cfg) s

/-- `SETPT index` (R191). -/
def execSetpt (index : BitVec 4) (s : State) : Result := offer (expandSetpt s.cfg index) s

/-- `FILL on` (R192). -/
def execFill (on : Bool) (s : State) : Result := offer (expandFill on) s

end Sys2Proof.Machine
end

