-- ==== Sys2Proof/Machine/Errors.lean ====
section
/-! DEFINITION. The reserved request words, which record an error and send nothing (60_exceptions.md R223). -/

namespace Sys2Proof.Machine

/-- `Expand(DATAW(wsel)) = Err(BAD_WIDTH)` (R223). -/
def expandDataw : Expansion := .err .badWidth

/-- `Expand(RESERVED) = Err(RESERVED_OP)` (R223). -/
def expandReserved : Expansion := .err .reservedOp

/-- `DATAW` with `WSEL = 01` (R85, R223). -/
def execDataw01 (s : State) : Result := offer expandDataw s

/-- `DATAW` with `WSEL = 10` (R85, R223). -/
def execDataw10 (s : State) : Result := offer expandDataw s

/-- `RESERVED` (R84, R223). -/
def execReserved (s : State) : Result := offer expandReserved s

end Sys2Proof.Machine
end

