-- ==== Sys2Proof/Machine/Framer.lean ====
section
/-! DEFINITION. The requests of the protocol framer: CMD, DATA4, DATA16 (41_framer.md). -/

namespace Sys2Proof.Machine

/-- `Expand(CMD(code))`: one command frame, whatever the code (R142, R147). -/
def expandCmd (code : Code) : Expansion := .ok [.cmd code]

/-- `Expand(DATA4(addr, nib))` (R143). -/
def expandData4 (addr : Addr) (nib : Nibble) : Expansion :=
  if addr.toNat + 1 > 64 then .err .addrRange else .ok [.data4 addr nib]

/-- `Expand(DATA16(addr, value))`: a write that would pass `0x3F` is an error (R144). -/
def expandData16 (addr : Addr) (value : Pattern) : Expansion :=
  if addr.toNat + 4 > 64 then .err .addrRange else .ok [.data16 addr value]

/-- `CMD code` (R142). -/
def execCmd (code : Code) (s : State) : Result := offer (expandCmd code) s

/-- `DATA4 addr, nib` (R143). -/
def execData4 (addr : Addr) (nib : Nibble) (s : State) : Result := offer (expandData4 addr nib) s

/-- `DATA16 addr, value` (R144). -/
def execData16 (addr : Addr) (value : Pattern) (s : State) : Result := offer (expandData16 addr value) s

end Sys2Proof.Machine
end

