-- ==== Sys2Proof/Machine/Pseudo.lean ====
section
/-! DEFINITION. The pseudo-instructions of R92, each one core request with fixed operands. -/

namespace Sys2Proof.Machine

/-- `SYSDIS` = `CMD 0x00`, `systemOscillator(false)` (R92, R145). -/
def execSysdis (s : State) : Result := offer (expandCmd 0x00#8) s

/-- `SYSEN` = `CMD 0x01`, `systemOscillator(true)` (R92, R145). -/
def execSysen (s : State) : Result := offer (expandCmd 0x01#8) s

/-- `LCDOFF` = `CMD 0x02`, `lcdPower(false)` (R92, R145). -/
def execLcdoff (s : State) : Result := offer (expandCmd 0x02#8) s

/-- `LCDON` = `CMD 0x03`, `lcdPower(true)` (R92, R145). -/
def execLcdon (s : State) : Result := offer (expandCmd 0x03#8) s

/-- `CLEAR` = `FILL off`, the frames of `clearDisplay()` (R92, R194). -/
def execClear (s : State) : Result := offer (expandFill false) s

/-- `LAMPTEST` = `FILL on`, `allSegments(true)` (R92, R194). -/
def execLamptest (s : State) : Result := offer (expandFill true) s

/-- `DRAW pos, bits` = `CELL pos, bits`, `drawChar(bits, pos)` (R92, R194). -/
def execDraw (pos : BitVec 4) (bits : Pattern) (s : State) : Result := offer (expandCell pos bits) s

end Sys2Proof.Machine
end

