-- ==== Sys2Proof/Machine/Wire.lean ====
section
/-! DEFINITION. The wire frames: what the receiver does with a whole frame (20_memory.md R63, R64, R69). -/

namespace Sys2Proof.Machine

/-- A command frame (R63). -/
def execFrameCmd (code : Code) (s : State) : Result := deliver (.cmd code) s

/-- A 4-bit data frame (R64). -/
def execFrameData4 (addr : Addr) (value : Nibble) (s : State) : Result := deliver (.data4 addr value) s

/-- A 16-bit data frame (R64); one that would pass `0x3F` is malformed (R65). -/
def execFrameData16 (addr : Addr) (value : Pattern) (s : State) : Result := deliver (.data16 addr value) s

end Sys2Proof.Machine
end

