-- ==== Sys2Proof/Machine/Dispatch.lean ====
section
/-! DEFINITION. One arm per instruction, each one call of its meaning. -/

namespace Sys2Proof.Machine

def exec (i : Instr) (s : State) : Host.Outcome State Fault Refusal :=
  match i with
  | .cmd code => Sys2Proof.Machine.execCmd code s
  | .data4 addr nib => Sys2Proof.Machine.execData4 addr nib s
  | .data16 addr value => Sys2Proof.Machine.execData16 addr value s
  | .dataw01 => Sys2Proof.Machine.execDataw01 s
  | .dataw10 => Sys2Proof.Machine.execDataw10 s
  | .cell pos pattern => Sys2Proof.Machine.execCell pos pattern s
  | .point index on => Sys2Proof.Machine.execPoint index on s
  | .rstpts => Sys2Proof.Machine.execRstpts s
  | .setpt index => Sys2Proof.Machine.execSetpt index s
  | .fill on => Sys2Proof.Machine.execFill on s
  | .reserved => Sys2Proof.Machine.execReserved s
  | .sysdis => Sys2Proof.Machine.execSysdis s
  | .sysen => Sys2Proof.Machine.execSysen s
  | .lcdoff => Sys2Proof.Machine.execLcdoff s
  | .lcdon => Sys2Proof.Machine.execLcdon s
  | .clear => Sys2Proof.Machine.execClear s
  | .lamptest => Sys2Proof.Machine.execLamptest s
  | .draw pos bits => Sys2Proof.Machine.execDraw pos bits s
  | .frameCmd code => Sys2Proof.Machine.execFrameCmd code s
  | .frameData4 addr value => Sys2Proof.Machine.execFrameData4 addr value s
  | .frameData16 addr value => Sys2Proof.Machine.execFrameData16 addr value s

end Sys2Proof.Machine
end

