-- ==== Sys2Proof/Machine/Clock.lean ====
section
/-! DEFINITION. One cycle of the clock: the block's edge (40_serializer.md R112 to R118), then the receiver's look at
the lines of the new cycle (20_memory.md R62, R66), then the environment (R67, R111). Also how an instruction is placed
where the next cycle takes it. -/

namespace Sys2Proof.Machine

/-! ### The block's edge -/

/-- `IDLE`: a request on the port is accepted, which is `exec` of what its word decodes to (R113). -/
def idleEdge (s : State) : Result :=
  if s.input.reqValid then exec (decodeRequest s.input.reqWord) s else .next s

/-- `SETUP`: after `NS` cycles the clock falls for the first bit (R115). -/
def setupEdge (s : State) : State :=
  if s.timer = 0 then { s with phase := .low, sclk := false, timer := s.cfg.np - 1 }
  else { s with timer := s.timer - 1 }

/-- `LOW`: one cycle after the clock fell the data line takes the next bit; after `NP` cycles the clock rises (R116).
Both conditions read the timer from before the edge (R10). -/
def lowEdge (s : State) : State :=
  let d := if s.timer = s.cfg.np - 1 then s.shreg.getLsbD 24 else s.sdata
  if s.timer = 0 then { s with sdata := d, phase := .high, sclk := true, timer := s.cfg.np - 1 }
  else { s with sdata := d, timer := s.timer - 1 }

/-- `HIGH`: after `NP` cycles the bit is done; the register shifts, and the next bit starts or the frame ends (R117). -/
def highEdge (s : State) : State :=
  if s.timer = 0 then
    let t := { s with shreg := s.shreg <<< 1, nbits := s.nbits - 1 }
    if s.nbits = 1 then { t with csN := true, phase := .gap, timer := s.cfg.ng - 1 }
    else { t with phase := .low, sclk := false, timer := s.cfg.np - 1 }
  else { s with timer := s.timer - 1 }

/-- `GAP`: after `NG` cycles the next frame of the request starts, or the block is idle again (R118). -/
def gapEdge (s : State) : State :=
  if s.timer = 0 then
    match s.pend with
    | f :: fs => s.start f fs
    | [] => { s with phase := .idle }
  else { s with timer := s.timer - 1 }

/-- `Step(S, in)`: reset first, then by the phase (R112). -/
def blockEdge (s : State) : Result :=
  if s.input.rst then .next s.resetBlock
  else
    match s.phase with
    | .idle => idleEdge s
    | .setup => .next (setupEdge s)
    | .low => .next (lowEdge s)
    | .high => .next (highEdge s)
    | .gap => .next (gapEdge s)

/-! ### The receiver -/

/-- `Interpret(bits)`: `exec` of the frame the bits spell, or the malformed case (R63 to R65). -/
def interpret (bits : List Bool) (s : State) : Result :=
  match decode (.wire bits) with
  | .ok i => exec i s
  | .error _ => .next (s.setRx s.rx.forget)

/-- The receiver's cycle (R62). A frame that a reset cuts is malformed whatever its bits (R66; log entry 14). -/
def receive (cut : Bool) (s : State) : Result :=
  let t := s.setRx (s.rx.sample s.csN s.sclk s.sdata)
  if cut then .next (t.setRx t.rx.forget)
  else if s.rx.frameEnds s.csN then interpret t.rx.buf t
  else .next t

/-- The end of a cycle: the receiver remembers the lines (R62), a power loss takes its effect (R67; after the sampling,
DESIGN CHOICE, log entry 7), and the cycle's inputs are used up (R111). -/
def endCycle (s : State) : State :=
  let rx := s.rx.remember s.csN s.sclk
  { s with rx := if s.input.powerLoss then rx.losePower else rx, inputs := s.inputs.tail }

/-- A reset edge while chip-select is asserted cuts the frame on the wire (R66, R252). -/
def State.cutsFrame (s : State) : Bool := s.input.rst && !s.csN

/-- One cycle: the edge, the receiver, the end of the cycle (R62, R111). -/
def cycle (s : State) : Result :=
  (blockEdge s).andThen fun t => (receive s.cutsFrame t).andThen fun u => .next (endCycle u)

/-! ### Placing an instruction -/

/-- The block between requests, all lines at their idle levels as the receiver last saw them (R23, R126). -/
def State.toIdle (s : State) : State :=
  { s with phase := .idle, timer := 0, nbits := 0, shreg := 0#25, pend := [], csN := true, sclk := true,
           rx := s.rx.remember true true }

/-- The host offers the word `w` in this cycle; a block that is busy is put in `IDLE` first (log entry 11). -/
def placeRequest (w : Word) (s : State) : State :=
  let t := if s.phase = .idle then s else s.toIdle
  { t with inputs := PortIn.offer w :: s.inputs.tail }

/-- The last cycle of a frame whose bits the receiver has all sampled: chip-select rises at the next edge, and the
receiver interprets them there (log entry 11). -/
def placeFrame (bits : List Bool) (s : State) : State :=
  { s with phase := .high, timer := 0, nbits := 1, shreg := leftAlign [bits.getLastD false], csN := false,
           sclk := true, sdata := bits.getLastD false,
           rx := { s.rx with buf := bits, prevCsN := false, prevSclk := true },
           inputs := PortIn.quiet :: s.inputs.tail }

/-- Place what was fetched where the next cycle runs it. -/
def place : Fetched → State → State
  | .request w, s => placeRequest w s
  | .wire bits, s => placeFrame bits s

end Sys2Proof.Machine
end

