-- ==== Sys2Proof/Machine/Step.lean ====
section
/-! DEFINITION. The step of the machine, one clock cycle (R111, R112), and how a word of the opcode table is placed for
the next step. -/

namespace Sys2Proof.Machine

/-- One step is one cycle: `S_{k+1} = Step(S_k, in_k)` with the receiver beside it (R62, R111). -/
def step (s : State) : Host.Outcome State Fault Refusal := cycle s

/-- The state in which the next step runs the instruction with number `w` of the opcode table (log entries 10, 11). -/
def State.withFetchWord (s : State) (nbits w : Nat) : State := place (fetchedOfTable nbits w) s

end Sys2Proof.Machine
end

