-- ==== Sys2Proof/Machine/Assembler.lean ====
section
/-! DEFINITION. The assembler syntax of 30_encoding.md R91 and R92: from the characters of one line to a request. It is
a tool beside the block. What R91 leaves open of the text (capitals, where spaces may stand) is log entry 16. -/

namespace Sys2Proof.Machine

/-- An operand: a number, or one of the words `on` and `off` (R91). -/
inductive Operand where
  | num (n : Nat)
  | on
  | off
  deriving DecidableEq, Repr

/-- The value of a digit. -/
def digitValue (c : Char) : Option Nat :=
  let n := c.toNat
  if 48 ≤ n ∧ n ≤ 57 then some (n - 48)
  else if 97 ≤ n ∧ n ≤ 102 then some (n - 87)
  else if 65 ≤ n ∧ n ≤ 70 then some (n - 55)
  else none

/-- The digits of a number in a base, most significant first, read after `acc`. -/
def readDigits (base : Nat) : Nat → List Char → Option Nat
  | acc, [] => some acc
  | acc, c :: cs =>
    match digitValue c with
    | some d => if d < base then readDigits base (base * acc + d) cs else none
    | none => none

/-- A number: decimal, `0x` hexadecimal or `0b` binary, with at least one digit (R91). -/
def readNumber : List Char → Option Nat
  | [] => none
  | ['0', 'x'] => none
  | ['0', 'b'] => none
  | '0' :: 'x' :: ds => readDigits 16 0 ds
  | '0' :: 'b' :: ds => readDigits 2 0 ds
  | ds => readDigits 10 0 ds

/-- An operand's characters. -/
def readOperand : List Char → Option Operand
  | ['o', 'n'] => some .on
  | ['o', 'f', 'f'] => some .off
  | ds => (readNumber ds).map .num

/-- The characters without the spaces at either end. -/
def trimSpaces (cs : List Char) : List Char :=
  ((cs.dropWhile (· = ' ')).reverse.dropWhile (· = ' ')).reverse

/-- The pieces between commas. -/
def splitCommas : List Char → List (List Char)
  | [] => [[]]
  | c :: cs =>
    match splitCommas cs with
    | [] => [[c]]
    | p :: ps => if c = ',' then [] :: p :: ps else (c :: p) :: ps

/-- All operands of a line, none if one of them cannot be read. -/
def readOperands (cs : List Char) : Option (List Operand) :=
  match trimSpaces cs with
  | [] => some []
  | d :: ds => (splitCommas (d :: ds)).mapM fun p => readOperand (trimSpaces p)

/-- A number that fits a field of `n` bits; an assembler refuses any other (R91). -/
def fits (n v : Nat) : Option (BitVec n) := if v < 2 ^ n then some (BitVec.ofNat n v) else none

/-- The mnemonics of R91 and the pseudo-instructions of R92. -/
inductive Mnemonic where
  | cmd
  | data4
  | data16
  | cell
  | point
  | rstpts
  | setpt
  | fill
  | sysdis
  | sysen
  | lcdoff
  | lcdon
  | clear
  | lamptest
  | draw
  deriving DecidableEq, Repr

/-- The mnemonics as they are written (R91, R92). -/
def mnemonicTable : List (List Char × Mnemonic) :=
  [(['C', 'M', 'D'], .cmd), (['D', 'A', 'T', 'A', '4'], .data4), (['D', 'A', 'T', 'A', '1', '6'], .data16),
   (['C', 'E', 'L', 'L'], .cell), (['P', 'O', 'I', 'N', 'T'], .point), (['R', 'S', 'T', 'P', 'T', 'S'], .rstpts),
   (['S', 'E', 'T', 'P', 'T'], .setpt), (['F', 'I', 'L', 'L'], .fill)] ++
  [(['S', 'Y', 'S', 'D', 'I', 'S'], .sysdis), (['S', 'Y', 'S', 'E', 'N'], .sysen),
   (['L', 'C', 'D', 'O', 'F', 'F'], .lcdoff), (['L', 'C', 'D', 'O', 'N'], .lcdon), (['C', 'L', 'E', 'A', 'R'], .clear),
   (['L', 'A', 'M', 'P', 'T', 'E', 'S', 'T'], .lamptest), (['D', 'R', 'A', 'W'], .draw)]

/-- The mnemonic a word of the line is. -/
def readMnemonic (cs : List Char) : Option Mnemonic :=
  (mnemonicTable.find? fun row => row.1 = cs).map (·.2)

/-- Both operands, if both fit. -/
def fitsBoth (m n a b : Nat) : Option (BitVec m × BitVec n) :=
  match fits m a, fits n b with
  | some x, some y => some (x, y)
  | _, _ => none

/-- The request of a mnemonic and its operands (R91, R92). `POINT` without its second operand means `on`. A switch
operand is `on` or `off`, and every other operand is a number: `on` or `off` where a number stands, or a number where a
switch stands, is refused (DESIGN CHOICE, log entry 16: R91 leaves both open). -/
def assembleOperands : Mnemonic → List Operand → Option Instr
  | .cmd, [.num c] => (fits 8 c).map .cmd
  | .data4, [.num a, .num v] => (fitsBoth 6 4 a v).map fun p => .data4 p.1 p.2
  | .data16, [.num a, .num v] => (fitsBoth 6 16 a v).map fun p => .data16 p.1 p.2
  | .cell, [.num p, .num v] => (fitsBoth 4 16 p v).map fun q => .cell q.1 q.2
  | .point, [.num i] => (fits 4 i).map (.point · true)
  | .point, [.num i, .on] => (fits 4 i).map (.point · true)
  | .point, [.num i, .off] => (fits 4 i).map (.point · false)
  | .rstpts, [] => some .rstpts
  | .setpt, [.num i] => (fits 4 i).map .setpt
  | .fill, [.on] => some (.fill true)
  | .fill, [.off] => some (.fill false)
  | .sysdis, [] => some .sysdis
  | .sysen, [] => some .sysen
  | .lcdoff, [] => some .lcdoff
  | .lcdon, [] => some .lcdon
  | .clear, [] => some .clear
  | .lamptest, [] => some .lamptest
  | .draw, [.num p, .num v] => (fitsBoth 4 16 p v).map fun q => .draw q.1 q.2
  | _, _ => none

/-- The request of a line: a mnemonic, then operands separated by commas (R91). -/
def assembleLine (line : List Char) : Option Instr :=
  let text := trimSpaces line
  match readMnemonic (text.takeWhile (· ≠ ' ')), readOperands (text.dropWhile (· ≠ ' ')) with
  | some m, some ops => assembleOperands m ops
  | _, _ => none

/-- The request word of a line (R91). -/
def assemble (line : List Char) : Option Word :=
  match (assembleLine line).map encode with
  | some (.request w) => some w
  | some (.wire _) => none
  | none => none

end Sys2Proof.Machine
end

