-- ==== Sys2Proof/Machine/Expand.lean ====
section
/-! DEFINITION. `Expand` of R82 as one function of a request and the configuration, and the cycles its frames take
(R121). The meanings call the expansion of their own instruction; this gathers them. -/

namespace Sys2Proof.Machine

/-- `Expand(r)` (R82). A wire frame is no request and has no expansion. -/
def expand (c : Config) : Instr → Option Expansion
  | .cmd code => some (expandCmd code)
  | .data4 addr nib => some (expandData4 addr nib)
  | .data16 addr value => some (expandData16 addr value)
  | .dataw01 => some expandDataw
  | .dataw10 => some expandDataw
  | .cell pos pattern => some (expandCell pos pattern)
  | .point index on => some (expandPoint c index on)
  | .rstpts => some (expandRstpts c)
  | .setpt index => some (expandSetpt c index)
  | .fill on => some (expandFill on)
  | .reserved => some expandReserved
  | .sysdis => some (expandCmd 0x00#8)
  | .sysen => some (expandCmd 0x01#8)
  | .lcdoff => some (expandCmd 0x02#8)
  | .lcdon => some (expandCmd 0x03#8)
  | .clear => some (expandFill false)
  | .lamptest => some (expandFill true)
  | .draw pos bits => some (expandCell pos bits)
  | .frameCmd _ => none
  | .frameData4 _ _ => none
  | .frameData16 _ _ => none

/-- The frame a wire instruction stands for. -/
def wireFrame : Instr → Option Frame
  | .frameCmd code => some (.cmd code)
  | .frameData4 addr value => some (.data4 addr value)
  | .frameData16 addr value => some (.data16 addr value)
  | .cmd _ => none
  | .data4 _ _ => none
  | .data16 _ _ => none
  | .dataw01 => none
  | .dataw10 => none
  | .cell _ _ => none
  | .point _ _ => none
  | .rstpts => none
  | .setpt _ => none
  | .fill _ => none
  | .reserved => none
  | .sysdis => none
  | .sysen => none
  | .lcdoff => none
  | .lcdon => none
  | .clear => none
  | .lamptest => none
  | .draw _ _ => none

/-- The wire instruction of a frame. -/
def instrOfFrame : Frame → Instr
  | .cmd code => .frameCmd code
  | .data4 addr value => .frameData4 addr value
  | .data16 addr value => .frameData16 addr value

/-- The frames of an expansion: none for an error (R222). -/
def Expansion.frames : Expansion → List Frame
  | .ok fs => fs
  | .err _ => []

/-- `T(n) = NS + 2*NP*n + NG`, the cycles of a frame of `n` bits with its gap (R121). -/
def frameCycles (c : Config) (n : Nat) : Nat := c.ns + 2 * c.np * n + c.ng

/-- The cycles for which the frames of a request keep the block busy (R121, R262). -/
def requestCycles (c : Config) (fs : List Frame) : Nat :=
  (fs.map fun f => frameCycles c (frameBits f).length).sum

/-- What the receiver has after a list of whole frames, one at a time in order (R58, R69). -/
def Rx.applyAll (rx : Rx) (fs : List Frame) : Rx := fs.foldl Rx.apply rx

end Sys2Proof.Machine
end

