-- ==== Sys2Proof/Machine/Driver.lean ====
section
/-! DEFINITION. The source's operations and the request that does the bus work of each (43_controller_ops.md R194), and
the boot sequence the spec requires of the host (70_reset_and_hazards.md R255). Both are lists for the host; the block
does not run them by itself. -/

namespace Sys2Proof.Machine

/-- The calls of R194 that do bus work in the block, with the framer's own two calls. Every other operation of R194 has
no request, or is a number of `CELL` requests that surrounding software chooses (R5). -/
inductive DriverCall where
  | clearDisplay
  | systemOscillator (on : Bool)
  | lcdPower (on : Bool)
  | allSegments (on : Bool)
  | drawChar (bits : Pattern) (pos : BitVec 4)
  | point (index : BitVec 4) (on : Bool)
  | setPoint (index : BitVec 4)
  | resetPoints
  | sendCommand (code : Code)
  | sendData4 (addr : Addr) (value : Nibble)
  | sendData16 (addr : Addr) (value : Pattern)
  deriving DecidableEq, Repr

/-- The request of a call (R194, R145). -/
def DriverCall.request : DriverCall → Instr
  | .clearDisplay => .fill false
  | .systemOscillator on => .cmd (if on then 0x01#8 else 0x00#8)
  | .lcdPower on => .cmd (if on then 0x03#8 else 0x02#8)
  | .allSegments on => .fill on
  | .drawChar bits pos => .cell pos bits
  | .point index on => .point index on
  | .setPoint index => .setpt index
  | .resetPoints => .rstpts
  | .sendCommand code => .cmd code
  | .sendData4 addr value => .data4 addr value
  | .sendData16 addr value => .data16 addr value

/-- The boot sequence: SYSEN, LCDON, CLEAR, RSTPTS (R255). -/
def bootSequence : List Instr := [.sysen, .lcdon, .clear, .rstpts]

/-- The frames a list of requests puts on the wire, in acceptance order (R58). -/
def framesOf (c : Config) (is : List Instr) : List Frame :=
  is.flatMap fun i => ((expand c i).map Expansion.frames).getD []

end Sys2Proof.Machine
end

