-- ==== Sys2Proof/Safety.lean ====
section
/-! DEFINITION. The terms claims use: the invariant of every reachable state, the receiver in step with the block, and
the states in which a frame is sent. -/

namespace Sys2Proof.Machine

/-- The invariants of 40_serializer.md R126, with the ranges of R24, R25 and R27, the error pair of R29, and the
canonical form of the receiver's memory. -/
structure State.Inv (s : State) : Prop where
  idle : s.phase = .idle → s.csN = true ∧ s.sclk = true ∧ s.nbits = 0 ∧ s.pend = [] ∧ s.timer = 0
  gap : s.phase = .gap → s.csN = true ∧ s.sclk = true ∧ s.nbits = 0
  setup : s.phase = .setup → s.csN = false ∧ s.sclk = true ∧ (s.nbits = 12 ∨ s.nbits = 13 ∨ s.nbits = 25)
  low : s.phase = .low → s.csN = false ∧ s.sclk = false ∧ 1 ≤ s.nbits ∧ s.nbits ≤ 25
  high : s.phase = .high → s.csN = false ∧ s.sclk = true ∧ 1 ≤ s.nbits ∧ s.nbits ≤ 25
  timer : s.timer < max (max s.cfg.np s.cfg.ns) s.cfg.ng
  /-- Bits of the shift register below those still to be sent are 0 (R25). -/
  shreg : s.shreg <<< s.nbits = 0#25
  pendLength : s.pend.length ≤ max (cellCount - 1) s.cfg.clusterCount
  pendInRange : ∀ f ∈ s.pend, f.inRange = true
  error : s.err = true ↔ s.cause ≠ Cause.none
  memory : s.rx.mem.wf

/-- The bits of the current frame that the receiver has still to sample. In `HIGH` the bit at the register's top has
been sampled at the rising edge that began the phase (R62, R116). -/
def State.toSample (s : State) : List Bool :=
  let left := (bitsMSB s.shreg).take s.nbits
  if s.phase = .high then left.tail else left

/-- The receiver follows the block: it remembers the present line levels (R62), the data line carries the current bit
from the second cycle of `LOW` on (R116), and while chip-select is asserted, what it has sampled and what is still to
be sampled make up one frame inside the memory (R125). -/
structure State.Tracked (s : State) : Prop where
  lines : s.rx.prevCsN = s.csN ∧ s.rx.prevSclk = s.sclk
  data : s.phase = .low → s.timer ≠ s.cfg.np - 1 → s.sdata = s.shreg.getLsbD 24
  frame : s.csN = false → ∃ f : Frame, f.inRange = true ∧ s.rx.buf ++ s.toSample = frameBits f

/-- The state right after a frame of `n` bits is started with its bits in the shift register and `rest` to follow
(R114, R119): everything else is as in `s`. -/
def State.sending (s : State) (n : Nat) (bits : ShiftReg) (rest : List Frame) : State :=
  { s with shreg := bits, nbits := n, pend := rest, csN := false, phase := .setup, timer := s.cfg.ns - 1 }

/-- The state right after error `c` is recorded for the first time (R222): everything else is as in `s`. -/
def State.failed (s : State) (c : Cause) : State := { s with err := true, cause := c }

/-- The same state with other levels on the request port in this cycle. -/
def State.withRequest (s : State) (valid : Bool) (w : Word) : State :=
  { s with inputs := { s.input with reqValid := valid, reqWord := w } :: s.inputs.tail }

/-- The fields a whole frame may change at the peripheral (R63, R64): everything of `RX` but the bits being received
and the remembered lines. -/
def Rx.content (rx : Rx) : Memory × Option Bool × Option Bool × Bool := (rx.mem, rx.sys, rx.lcd, rx.refused)

/-- In the first `n` cycles from here, reset is not asserted. -/
def State.noReset (s : State) (n : Nat) : Prop := ∀ k, k < n → (s.inputs.getD k PortIn.quiet).rst = false

/-- In the first `n` cycles from here, the peripheral keeps its power. -/
def State.powered (s : State) (n : Nat) : Prop := ∀ k, k < n → (s.inputs.getD k PortIn.quiet).powerLoss = false

/-! ### Frames as they stand in the shift register (R87, R88, R119) -/

/-- A command frame, left-aligned: `100`, the code, the pad bit 0. -/
def cmdBits (code : Code) : ShiftReg := 0x1000000#25 ||| code.setWidth 25 <<< 14

/-- A 4-bit data frame, left-aligned: `101`, the address, the value. -/
def data4Bits (addr : Addr) (value : Nibble) : ShiftReg :=
  0x1400000#25 ||| addr.setWidth 25 <<< 16 ||| value.setWidth 25 <<< 12

/-- A 16-bit data frame: `101`, the address, the value. -/
def data16Bits (addr : Addr) (value : Pattern) : ShiftReg :=
  0x1400000#25 ||| addr.setWidth 25 <<< 16 ||| value.setWidth 25

end Sys2Proof.Machine
end

