-- ==== Sys2Proof/Certificates/Slice0/Obligations.lean ====
section
/-! DEFINITION. The statements about the model, one definition each. A request's meaning is `exec` at a state whose
`reqReady` is true; a wire frame's meaning is `exec` at any state. -/

open Sys2Proof Sys2Proof.Machine

/-! ### Encoding and decoding -/

/-- 95_test_vectors.md section 2.1 and the frames of section 2.2: words and wire bits written out from the spec decode
to the instruction they stand for. -/
def Obligations.SpecWordsDecode : Prop :=
  decodeRequest 0x00000001#32 = .cmd 0x01#8 ∧ decodeRequest 0x1FFFFF03#32 = .cmd 0x03#8
  ∧ decodeRequest 0x2029ABC5#32 = .data4 0x29#6 0x5#4 ∧ decodeRequest 0x20E4FFFF#32 = .data16 0x24#6 0xFFFF#16
  ∧ decodeRequest 0x20400000#32 = .dataw01 ∧ decodeRequest 0x20800000#32 = .dataw10
  ∧ decodeRequest 0x40001234#32 = .cell 0#4 0x1234#16 ∧ decodeRequest 0x60000104#32 = .point 4#4 true
  ∧ decodeRequest 0x80000000#32 = .rstpts ∧ decodeRequest 0xA0000007#32 = .setpt 7#4
  ∧ decodeRequest 0xC0000100#32 = .fill true ∧ decodeRequest 0xFFFFFFFF#32 = .reserved
  ∧ decode (.wire (bitsMSB 0x954#12)) = .ok (.frameCmd 0xAA#8)
  ∧ decode (.wire (bitsMSB 0x1692#13)) = .ok (.frameData4 0x29#6 0x2#4)
  ∧ decode (.wire (bitsMSB 0x17CA5C3#25)) = .ok (.frameData16 0x3C#6 0xA5C3#16)

/-- Decode and encode agree on every well-formed instruction, with every operand at every value; a pseudo-instruction's
word decodes to the core request it stands for (R82, R92; log entry 8), and the bits of a frame decode to that frame (R63, R64). -/
def Obligations.DecodeUndoesEncode : Prop :=
  ∀ i : Instr, i.wellFormed = true → decode (encode i) = .ok i.core

/-- R83. Two words that agree on the used bits of what one of them decodes to decode alike and expand alike, whatever
their unused bits, and the encoder writes the unused bits as 0. -/
def Obligations.UnusedBitsAreIgnored : Prop :=
  (∀ w w' : Word, w' &&& (decodeRequest w).usedBits = w &&& (decodeRequest w).usedBits →
    decodeRequest w' = decodeRequest w ∧ ∀ c : Config, expand c (decodeRequest w') = expand c (decodeRequest w))
  ∧ ∀ (i : Instr) (w : Word), encode i = .request w → w &&& ~~~i.usedBits = 0#32

/-- The field table of R81, read from a word: which operation and which operands each `OP` and `WSEL` gives. -/
def Obligations.RequestFieldsStandWhereTheTableSays : Prop :=
  ∀ w : Word, decodeRequest w =
    if w.extractLsb' 29 3 = 0#3 then .cmd (w.extractLsb' 0 8)
    else if w.extractLsb' 29 3 = 1#3 then
      (if w.extractLsb' 22 2 = 0#2 then .data4 (w.extractLsb' 16 6) (w.extractLsb' 0 4)
       else if w.extractLsb' 22 2 = 1#2 then .dataw01
       else if w.extractLsb' 22 2 = 2#2 then .dataw10
       else .data16 (w.extractLsb' 16 6) (w.extractLsb' 0 16))
    else if w.extractLsb' 29 3 = 2#3 then .cell (w.extractLsb' 16 4) (w.extractLsb' 0 16)
    else if w.extractLsb' 29 3 = 3#3 then .point (w.extractLsb' 0 4) (w.getLsbD 8)
    else if w.extractLsb' 29 3 = 4#3 then .rstpts
    else if w.extractLsb' 29 3 = 5#3 then .setpt (w.extractLsb' 0 4)
    else if w.extractLsb' 29 3 = 6#3 then .fill (w.getLsbD 8)
    else .reserved

/-- R92. Each pseudo-instruction is one request word, that of its expansion, and it acts as its expansion does at every
state; the source operations of the table have those requests. -/
def Obligations.PseudoInstructionsAreTheirExpansions : Prop :=
  encode .sysdis = .request 0x00000000#32 ∧ encode .sysen = .request 0x00000001#32
  ∧ encode .lcdoff = .request 0x00000002#32 ∧ encode .lcdon = .request 0x00000003#32
  ∧ encode .clear = .request 0xC0000000#32 ∧ encode .lamptest = .request 0xC0000100#32
  ∧ (∀ (pos : BitVec 4) (bits : Pattern), encode (.draw pos bits) = encode (.cell pos bits))
  ∧ (∀ s : State, exec .sysdis s = exec (.cmd 0x00#8) s ∧ exec .sysen s = exec (.cmd 0x01#8) s
      ∧ exec .lcdoff s = exec (.cmd 0x02#8) s ∧ exec .lcdon s = exec (.cmd 0x03#8) s
      ∧ exec .clear s = exec (.fill false) s ∧ exec .lamptest s = exec (.fill true) s
      ∧ ∀ (pos : BitVec 4) (bits : Pattern), exec (.draw pos bits) s = exec (.cell pos bits) s)
  ∧ (DriverCall.systemOscillator false).request = Instr.core .sysdis
  ∧ (DriverCall.systemOscillator true).request = Instr.core .sysen
  ∧ (DriverCall.lcdPower false).request = Instr.core .lcdoff
  ∧ (DriverCall.lcdPower true).request = Instr.core .lcdon
  ∧ DriverCall.clearDisplay.request = Instr.core .clear
  ∧ (DriverCall.allSegments true).request = Instr.core .lamptest
  ∧ ∀ (pos : BitVec 4) (bits : Pattern), (DriverCall.drawChar bits pos).request = Instr.core (.draw pos bits)

/-- What the wire decoder accepts: exactly the bits of a frame inside the memory, the pad bit of a command frame
ignored (R63, R64, R89). Everything else is malformed (R65). -/
def Obligations.WireDecoderAcceptsExactlyFrames : Prop :=
  ∀ (bits : List Bool) (i : Instr), decode (.wire bits) = .ok i ↔
    ∃ f : Frame, f.inRange = true ∧ i = instrOfFrame f ∧
      (bits = frameBits f ∨ ∃ code, f = .cmd code ∧ bits = [true, false, false] ++ bitsMSB code ++ [true])

/-- R91 and R92. For each mnemonic, the operands the assembler takes and the request it makes of them, and that it
refuses all others: a number that does not fit its field, another count of operands, and (the model's choice, log entry
16) a number for a switch or a switch for a number. `POINT index` reads as `POINT index, on`. A word it writes has its
unused bits 0 and decodes to the line's request. -/
def Obligations.AssemblerChecksEveryField : Prop :=
  (∀ c, assembleOperands .cmd [.num c] = if c < 256 then some (.cmd (BitVec.ofNat 8 c)) else none)
  ∧ (∀ a v, assembleOperands .data4 [.num a, .num v] =
      if a < 64 ∧ v < 16 then some (.data4 (BitVec.ofNat 6 a) (BitVec.ofNat 4 v)) else none)
  ∧ (∀ a v, assembleOperands .data16 [.num a, .num v] =
      if a < 64 ∧ v < 65536 then some (.data16 (BitVec.ofNat 6 a) (BitVec.ofNat 16 v)) else none)
  ∧ (∀ p v, assembleOperands .cell [.num p, .num v] =
      if p < 16 ∧ v < 65536 then some (.cell (BitVec.ofNat 4 p) (BitVec.ofNat 16 v)) else none)
  ∧ (∀ i, assembleOperands .point [.num i] = assembleOperands .point [.num i, .on])
  ∧ (∀ i, assembleOperands .point [.num i, .on] = if i < 16 then some (.point (BitVec.ofNat 4 i) true) else none)
  ∧ (∀ i, assembleOperands .point [.num i, .off] = if i < 16 then some (.point (BitVec.ofNat 4 i) false) else none)
  ∧ (∀ i, assembleOperands .setpt [.num i] = if i < 16 then some (.setpt (BitVec.ofNat 4 i)) else none)
  ∧ (∀ p v, assembleOperands .draw [.num p, .num v] =
      if p < 16 ∧ v < 65536 then some (.draw (BitVec.ofNat 4 p) (BitVec.ofNat 16 v)) else none)
  ∧ (∀ ops, assembleOperands .fill ops =
      if ops = [.on] then some (.fill true) else if ops = [.off] then some (.fill false) else none)
  ∧ (∀ p ∈ [(Mnemonic.rstpts, Instr.rstpts), (.sysdis, .sysdis), (.sysen, .sysen), (.lcdoff, .lcdoff),
        (.lcdon, .lcdon), (.clear, .clear), (.lamptest, .lamptest)],
      ∀ ops, assembleOperands p.1 ops = if ops = [] then some p.2 else none)
  ∧ (∀ m ∈ [Mnemonic.cmd, .setpt], ∀ ops, (∀ n, ops ≠ [.num n]) → assembleOperands m ops = none)
  ∧ (∀ m ∈ [Mnemonic.data4, .data16, .cell, .draw], ∀ ops, (∀ a v, ops ≠ [.num a, .num v]) →
      assembleOperands m ops = none)
  ∧ (∀ ops, (∀ i, ops ≠ [.num i] ∧ ops ≠ [.num i, .on] ∧ ops ≠ [.num i, .off]) →
      assembleOperands .point ops = none)
  ∧ ∀ (line : List Char) (w : Word), assemble line = some w →
      ∃ i, assembleLine line = some i ∧ i.wellFormed = true ∧ w &&& ~~~i.usedBits = 0#32
        ∧ decodeRequest w = i.core

/-! ### Frames -/

/-- R87 and R88. The layout of the two frames, bit by bit in wire order. -/
def Obligations.FrameFieldsInWireOrder : Prop :=
  (∀ code : Code, (frameBits (.cmd code)).length = 12 ∧ (frameBits (.cmd code)).take 3 = [true, false, false]
    ∧ (∀ j, j < 8 → (frameBits (.cmd code))[3 + j]? = some (code.getMsbD j))
    ∧ (frameBits (.cmd code))[11]? = some false)
  ∧ (∀ (addr : Addr) (v : Nibble), (frameBits (.data4 addr v)).length = 13
    ∧ (frameBits (.data4 addr v)).take 3 = [true, false, true]
    ∧ (∀ j, j < 6 → (frameBits (.data4 addr v))[3 + j]? = some (addr.getMsbD j))
    ∧ (∀ j, j < 4 → (frameBits (.data4 addr v))[9 + j]? = some (v.getMsbD j)))
  ∧ ∀ (addr : Addr) (v : Pattern), (frameBits (.data16 addr v)).length = 25
    ∧ (frameBits (.data16 addr v)).take 3 = [true, false, true]
    ∧ (∀ j, j < 6 → (frameBits (.data16 addr v))[3 + j]? = some (addr.getMsbD j))
    ∧ (∀ j, j < 16 → (frameBits (.data16 addr v))[9 + j]? = some (v.getMsbD j))

/-- R119. Loading a frame puts bit `i` of it at weight `24 - i`, counts its bits, leaves zeros below them and its first
bit on top, and touches nothing else. -/
def Obligations.LoadLeftAlignsTheFrame : Prop :=
  ∀ (s : State) (f : Frame),
    (s.load f).shreg.toNat =
      ((List.range (frameBits f).length).map fun i => ((frameBits f).getD i false).toNat <<< (24 - i)).sum
    ∧ (s.load f).nbits = (frameBits f).length
    ∧ ((frameBits f).length = 12 ∨ (frameBits f).length = 13 ∨ (frameBits f).length = 25)
    ∧ (s.load f).shreg.getLsbD 24 = (frameBits f).headD false
    ∧ (∀ i, i < 25 - (frameBits f).length → (s.load f).shreg.getLsbD i = false)
    ∧ s.load f = { s with shreg := (s.load f).shreg, nbits := (s.load f).nbits }

/-! ### The memory map -/

/-- R160, with the cover of R162. Position `p` is at `0x24 - 4*p`, positions from 10 on have no address, and every location of
`0x00` to `0x27` belongs to exactly one cell while no other location belongs to any. -/
def Obligations.CellsCoverTheirRangeOnce : Prop :=
  (∀ p, p < 10 → cellAddr? p = some (BitVec.ofNat 6 (0x24 - 4 * p))) ∧ (∀ p, 10 ≤ p → cellAddr? p = none)
  ∧ ∀ a : Nat, a < 0x28 ↔ ∃! p : Nat, p < 10 ∧ 0x24 - 4 * p ≤ a ∧ a ≤ 0x24 - 4 * p + 3

/-- R163 and R164, with the bounds of R168. In every admitted configuration and for every valid index, the cluster address is the source's
formula without overflow and at most `0x3F`, cluster `k` is at `0x29 + 2*k`, and the raw bit is 2 to the power of the
index's place in its cluster. -/
def Obligations.IndicatorDecoderNeverOverflows : Prop :=
  ∀ (c : Config) (i : Nat), i < c.pointCount →
    (clusterAddr c i).toNat = i / c.clusterSize * 2 + 0x29 ∧ i / c.clusterSize * 2 + 0x29 ≤ 0x3F
    ∧ i / c.clusterSize < c.clusterCount ∧ clusterAddr c i = clusterAddrOf (i / c.clusterSize)
    ∧ (∀ k, k < c.clusterCount → (clusterAddrOf k).toNat = 0x29 + 2 * k)
    ∧ (rawBit c i).toNat = 2 ^ (i % c.clusterSize) ∧ (rawBit c i).toNat ≤ 8 ∧ (packBit (rawBit c i)).toNat ≤ 13

/-- R165 and R166. The bit-packing quirk and its four values; the point map of the default configuration; the values in
a cluster for each admitted cluster size. -/
def Obligations.PointMapTables : Prop :=
  (∀ r : Nibble, packBit r = if r = 2#4 then r else r ^^^ 5#4)
  ∧ packBit 1#4 = 4#4 ∧ packBit 2#4 = 2#4 ∧ packBit 4#4 = 1#4 ∧ packBit 8#4 = 13#4
  ∧ (∀ (c : Config) (i : Nat), pointMap c i = (clusterAddr c i, packBit (rawBit c i)))
  ∧ (List.range 9).map (rawBit Config.default) = [1#4, 2#4, 4#4, 1#4, 2#4, 4#4, 1#4, 2#4, 4#4]
  ∧ (List.range 9).map (pointMap Config.default) =
      [(0x29#6, 4#4), (0x29#6, 2#4), (0x29#6, 1#4), (0x2B#6, 4#4), (0x2B#6, 2#4), (0x2B#6, 1#4), (0x2D#6, 4#4),
       (0x2D#6, 2#4), (0x2D#6, 1#4)]
  ∧ ∀ (c : Config) (i : Nat), (pointMap c i).2 = [4#4, 2#4, 1#4, 13#4].getD (i % c.clusterSize) 0#4

/-! ### What each request does when it is accepted -/

/-- R142. `CMD`: every word with `OP = 000` is one, it sends one command frame with its code whatever the code is,
and fails never; codes above `0x03` are refused by the receiver and `CMD 0x01` turns its oscillator on. -/
def Obligations.CmdSendsOneCommandFrame : Prop :=
  (∀ w : Word, w.extractLsb' 29 3 = 0#3 → decodeRequest w = .cmd (w.extractLsb' 0 8))
  ∧ (∀ (code : Code) (s : State), s.reqReady = true →
      exec (.cmd code) s = .next (s.sending 12 (cmdBits code) []))
  ∧ (∀ (code : Code) (rx : Rx), 0x03 < code.toNat → (rx.apply (.cmd code)).refused = true)
  ∧ ∀ rx : Rx, (rx.apply (.cmd 0x01#8)).sys = some true

/-- R143. `DATA4`: it sends one 4-bit data frame, at any address, and fails never; the receiver then holds the nibble
there while its oscillator is on. -/
def Obligations.Data4SendsOneShortDataFrame : Prop :=
  (∀ w : Word, w.extractLsb' 29 3 = 1#3 → w.extractLsb' 22 2 = 0#2 →
      decodeRequest w = .data4 (w.extractLsb' 16 6) (w.extractLsb' 0 4))
  ∧ (∀ (addr : Addr) (nib : Nibble) (s : State), s.reqReady = true →
      exec (.data4 addr nib) s = .next (s.sending 13 (data4Bits addr nib) []))
  ∧ ∀ (addr : Addr) (nib : Nibble) (rx : Rx), rx.mem.wf → rx.sys = some true →
      (rx.apply (.data4 addr nib)).mem.read addr.toNat = some nib

/-- R144. `DATA16`: it sends one 16-bit data frame if the write does not pass `0x3F`, and records `ADDR_RANGE`
otherwise, sending nothing; the receiver then holds the four nibbles from `addr` on while its oscillator is on. -/
def Obligations.Data16SendsOneLongDataFrameOrFails : Prop :=
  (∀ w : Word, w.extractLsb' 29 3 = 1#3 → w.extractLsb' 22 2 = 3#2 →
      decodeRequest w = .data16 (w.extractLsb' 16 6) (w.extractLsb' 0 16))
  ∧ (∀ (addr : Addr) (value : Pattern) (s : State), s.reqReady = true → addr.toNat ≤ 0x3C →
      exec (.data16 addr value) s = .next (s.sending 25 (data16Bits addr value) []))
  ∧ (∀ (addr : Addr) (value : Pattern) (s : State), s.reqReady = true → 0x3C < addr.toNat →
      exec (.data16 addr value) s = .next (if s.err then s else s.failed .addrRange))
  ∧ (∀ rx : Rx, rx.mem.wf → rx.sys = some true → ∀ a, 0x24 ≤ a → a ≤ 0x27 →
      (rx.apply (.data16 0x24#6 0xFFFF#16)).mem.read a = some 0xF#4)
  ∧ ∀ (addr : Addr) (value : Pattern) (rx : Rx), rx.mem.wf → rx.sys = some true → addr.toNat ≤ 0x3C → ∀ j, j < 4 →
      (rx.apply (.data16 addr value)).mem.read (addr.toNat + j) = some (value.extractLsb' (4 * (3 - j)) 4)

/-- R169. `CELL`: for a position of the table it sends one 16-bit data frame to the cell's address, which replaces the
cell's four locations and no other; for a position from 10 on it records `BAD_CELL` and sends nothing. -/
def Obligations.CellWritesOneCellOrFails : Prop :=
  (∀ w : Word, w.extractLsb' 29 3 = 2#3 → decodeRequest w = .cell (w.extractLsb' 16 4) (w.extractLsb' 0 16))
  ∧ (∀ (pos : BitVec 4) (pattern : Pattern) (s : State), s.reqReady = true → pos.toNat < 10 →
      exec (.cell pos pattern) s =
        .next (s.sending 25 (data16Bits (BitVec.ofNat 6 (0x24 - 4 * pos.toNat)) pattern) []))
  ∧ (∀ (pos : BitVec 4) (pattern : Pattern) (s : State), s.reqReady = true → 10 ≤ pos.toNat →
      exec (.cell pos pattern) s = .next (if s.err then s else s.failed .badCell))
  ∧ ∀ (pos : BitVec 4) (pattern : Pattern) (rx : Rx) (a : Nat), pos.toNat < 10 → rx.mem.wf → rx.sys = some true →
      (rx.apply (.data16 (BitVec.ofNat 6 (0x24 - 4 * pos.toNat)) pattern)).mem.read a =
        if 0x24 - 4 * pos.toNat ≤ a ∧ a ≤ 0x24 - 4 * pos.toNat + 3 then
          some (pattern.extractLsb' (4 * (3 - (a - (0x24 - 4 * pos.toNat)))) 4)
        else rx.mem.read a

/-- R170. `POINT`: without indicators it changes nothing; an index outside them records `BAD_POINT`; otherwise it sends
one 4-bit data frame to the index's cluster, with the packed bit for `on` and 0 for `off`. -/
def Obligations.PointWritesItsClusterOrFails : Prop :=
  (∀ w : Word, w.extractLsb' 29 3 = 3#3 → decodeRequest w = .point (w.extractLsb' 0 4) (w.getLsbD 8))
  ∧ (∀ (index : BitVec 4) (on : Bool) (s : State), s.reqReady = true → s.cfg.clusterCount = 0 →
      exec (.point index on) s = .next s)
  ∧ (∀ (index : BitVec 4) (on : Bool) (s : State), s.reqReady = true → 0 < s.cfg.clusterCount →
      s.cfg.pointCount ≤ index.toNat →
      exec (.point index on) s = .next (if s.err then s else s.failed .badPoint))
  ∧ ∀ (index : BitVec 4) (on : Bool) (s : State), s.reqReady = true → index.toNat < s.cfg.pointCount →
      exec (.point index on) s =
        .next (s.sending 13
          (data4Bits (BitVec.ofNat 6 (0x29 + 2 * (index.toNat / s.cfg.clusterSize)))
            (if on then [4#4, 2#4, 1#4, 13#4].getD (index.toNat % s.cfg.clusterSize) 0#4 else 0#4)) [])

/-- R190. `RSTPTS`: it sends 0 to every cluster, one 4-bit frame each in ascending address order; without indicators it
changes nothing. With the oscillator on, its frames leave 0 in every cluster and nothing else at the receiver changed. -/
def Obligations.RstptsClearsEveryCluster : Prop :=
  (∀ w : Word, w.extractLsb' 29 3 = 4#3 → decodeRequest w = .rstpts)
  ∧ (∀ s : State, s.reqReady = true → s.cfg.clusterCount = 0 → exec .rstpts s = .next s)
  ∧ (∀ s : State, s.reqReady = true → 0 < s.cfg.clusterCount →
      exec .rstpts s =
        .next (s.sending 13 (data4Bits 0x29#6 0#4)
          ((List.range (s.cfg.clusterCount - 1)).map fun k => .data4 (BitVec.ofNat 6 (0x2B + 2 * k)) 0#4)))
  ∧ ∀ (c : Config) (rx : Rx) (fs : List Frame), rx.mem.wf → rx.sys = some true →
      expand c .rstpts = some (.ok fs) →
      (∀ a, (rx.applyAll fs).mem.read a =
        if ∃ k, k < c.clusterCount ∧ a = 0x29 + 2 * k then some 0#4 else rx.mem.read a)
      ∧ rx.applyAll fs = { rx with mem := (rx.applyAll fs).mem }

/-- R191. `SETPT`: it sends the frames of `RSTPTS`, then the point's own; an index outside the indicators records
`BAD_POINT` and sends nothing; without indicators it changes nothing. -/
def Obligations.SetptClearsThenLightsOrFails : Prop :=
  (∀ w : Word, w.extractLsb' 29 3 = 5#3 → decodeRequest w = .setpt (w.extractLsb' 0 4))
  ∧ (∀ (index : BitVec 4) (s : State), s.reqReady = true → s.cfg.clusterCount = 0 →
      exec (.setpt index) s = .next s)
  ∧ (∀ (index : BitVec 4) (s : State), s.reqReady = true → 0 < s.cfg.clusterCount →
      s.cfg.pointCount ≤ index.toNat →
      exec (.setpt index) s = .next (if s.err then s else s.failed .badPoint))
  ∧ ∀ (index : BitVec 4) (s : State), s.reqReady = true → index.toNat < s.cfg.pointCount →
      exec (.setpt index) s =
        .next (s.sending 13 (data4Bits 0x29#6 0#4)
          (((List.range (s.cfg.clusterCount - 1)).map fun k => .data4 (BitVec.ofNat 6 (0x2B + 2 * k)) 0#4) ++
            [.data4 (BitVec.ofNat 6 (0x29 + 2 * (index.toNat / s.cfg.clusterSize)))
              ([4#4, 2#4, 1#4, 13#4].getD (index.toNat % s.cfg.clusterSize) 0#4)]))

/-- R192. `FILL`: it sends one 16-bit frame to each of the ten cells, in ascending address order, all ones for `on` and
zero for `off`, and never fails. -/
def Obligations.FillWritesEveryCell : Prop :=
  (∀ w : Word, w.extractLsb' 29 3 = 6#3 → decodeRequest w = .fill (w.getLsbD 8))
  ∧ ∀ (on : Bool) (s : State), s.reqReady = true →
      exec (.fill on) s =
        .next (s.sending 25 (data16Bits 0x00#6 (if on then 0xFFFF#16 else 0x0000#16))
          ((List.range 9).map fun k => .data16 (BitVec.ofNat 6 (4 * (k + 1))) (if on then 0xFFFF#16 else 0x0000#16)))

/-- R84, and R85 with R222. A reserved word is accepted and records its cause, the first one only, and sends nothing. -/
def Obligations.ReservedWordsRecordTheirCause : Prop :=
  (∀ w : Word, w.extractLsb' 29 3 = 7#3 → decodeRequest w = .reserved)
  ∧ (∀ w : Word, w.extractLsb' 29 3 = 1#3 → w.extractLsb' 22 2 = 1#2 → decodeRequest w = .dataw01)
  ∧ (∀ w : Word, w.extractLsb' 29 3 = 1#3 → w.extractLsb' 22 2 = 2#2 → decodeRequest w = .dataw10)
  ∧ (∀ c : Config, expand c .reserved = some (.err .reservedOp) ∧ expand c .dataw01 = some (.err .badWidth)
      ∧ expand c .dataw10 = some (.err .badWidth))
  ∧ ∀ s : State, s.reqReady = true →
      exec .reserved s = .next (if s.err then s else s.failed .reservedOp)
      ∧ exec .dataw01 s = .next (if s.err then s else s.failed .badWidth)
      ∧ exec .dataw10 s = .next (if s.err then s else s.failed .badWidth)

/-- R93. The four named commands send the frames `0x800`, `0x802`, `0x804` and `0x806`, written as wire bits and as
they stand left-aligned in the register. -/
def Obligations.NamedCommandsSendTheirFrames : Prop :=
  frameBits (.cmd 0x00#8) = bitsMSB 0x800#12 ∧ frameBits (.cmd 0x01#8) = bitsMSB 0x802#12
  ∧ frameBits (.cmd 0x02#8) = bitsMSB 0x804#12 ∧ frameBits (.cmd 0x03#8) = bitsMSB 0x806#12
  ∧ ∀ s : State, s.reqReady = true →
    exec .sysdis s = .next (s.sending 12 (0x800#25 <<< 13) [])
    ∧ exec .sysen s = .next (s.sending 12 (0x802#25 <<< 13) [])
    ∧ exec .lcdoff s = .next (s.sending 12 (0x804#25 <<< 13) [])
    ∧ exec .lcdon s = .next (s.sending 12 (0x806#25 <<< 13) [])

/-- R92 with the frames of 95_test_vectors.md V-C5 and V-C6. `CLEAR` and `LAMPTEST` fill the ten cells, `DRAW` writes
one cell or records `BAD_CELL`. -/
def Obligations.ClearLamptestAndDrawSendTheirFrames : Prop :=
  ∀ s : State, s.reqReady = true →
    exec .clear s = .next (s.sending 25 0x1400000#25
      ([0x04#6, 0x08#6, 0x0C#6, 0x10#6, 0x14#6, 0x18#6, 0x1C#6, 0x20#6, 0x24#6].map fun a => .data16 a 0x0000#16))
    ∧ exec .lamptest s = .next (s.sending 25 0x140FFFF#25
      ([0x04#6, 0x08#6, 0x0C#6, 0x10#6, 0x14#6, 0x18#6, 0x1C#6, 0x20#6, 0x24#6].map fun a => .data16 a 0xFFFF#16))
    ∧ ∀ (pos : BitVec 4) (bits : Pattern), exec (.draw pos bits) s =
        .next (if pos.toNat < 10 then s.sending 25 (data16Bits (BitVec.ofNat 6 (0x24 - 4 * pos.toNat)) bits) []
          else if s.err then s else s.failed .badCell)

/-- R30, R124 and R256. While `req_ready` is 0 a request waits: it has no effect. That `exec` then goes on from the same
state is the model's reading (log entry 5). -/
def Obligations.RequestsWaitWhileNotReady : Prop :=
  ∀ (i : Instr) (e : Expansion) (s : State), expand s.cfg i = some e → s.reqReady = false → exec i s = .next s

/-- The frame of every request: the receiver and so every location, the configuration, the inputs, the clock and the
data line are unchanged; the error pair is unchanged unless the expansion is an error; and everything but the error
pair is unchanged unless the expansion has a frame. -/
def Obligations.RequestsLeaveTheRestUnchanged : Prop :=
  ∀ (i : Instr) (e : Expansion) (s t : State), expand s.cfg i = some e → exec i s = .next t →
    t.rx = s.rx ∧ (∀ a, t.rx.mem.read a = s.rx.mem.read a) ∧ t.cfg = s.cfg ∧ t.inputs = s.inputs
    ∧ t.sclk = s.sclk ∧ t.sdata = s.sdata
    ∧ ((∀ c, e ≠ .err c) → t.err = s.err ∧ t.cause = s.cause)
    ∧ (e.frames = [] → t = { s with err := t.err, cause := t.cause })

/-! ### Which requests fail, and which do nothing -/

/-- R223. The table of causes is complete: at a ready state with no error recorded, an instruction records cause `k`
exactly in the listed cases. -/
def Obligations.CausesAreRaisedExactlyAsListed : Prop :=
  ∀ (s : State) (i : Instr) (k : Cause), s.reqReady = true → s.err = false →
    ((∃ t, exec i s = .next t ∧ t.err = true ∧ t.cause = k) ↔
      (i = .reserved ∧ k = .reservedOp)
      ∨ ((i = .dataw01 ∨ i = .dataw10) ∧ k = .badWidth)
      ∨ (∃ addr value, i = .data16 addr value ∧ 0x3C < addr.toNat ∧ k = .addrRange)
      ∨ (∃ pos pattern, (i = .cell pos pattern ∨ i = .draw pos pattern) ∧ 10 ≤ pos.toNat ∧ k = .badCell)
      ∨ (∃ index, ((∃ on, i = .point index on) ∨ i = .setpt index) ∧ 0 < s.cfg.clusterCount
          ∧ s.cfg.pointCount ≤ index.toNat ∧ k = .badPoint))

/-- R227. An expansion is empty exactly for POINT, SETPT and RSTPTS without indicators, and such a request changes
nothing. -/
def Obligations.EmptyExpansionsExactlyWithoutIndicators : Prop :=
  (∀ (c : Config) (i : Instr), expand c i = some (.ok []) ↔
    c.clusterCount = 0 ∧ ((∃ index on, i = .point index on) ∨ (∃ index, i = .setpt index) ∨ i = .rstpts))
  ∧ ∀ (i : Instr) (s : State), expand s.cfg i = some (.ok []) → exec i s = .next s

/-- R27, R50 and R69. Every expansion has at most ten frames or one more than there are clusters, and each frame stays
inside the display memory. -/
def Obligations.ExpansionsStayInsideTheMemory : Prop :=
  ∀ (c : Config) (i : Instr) (fs : List Frame), expand c i = some (.ok fs) →
    fs.length ≤ max 10 (c.clusterCount + 1) ∧ ∀ f ∈ fs, f.inRange = true

/-! ### The receiver -/

/-- R63. A command frame, pad bit ignored: code 0 turns the oscillator off and makes every location unknown, codes 1 to
3 set one flag, any other code marks the run refused; nothing else changes. That a code above `0x03` leaves the flags and
every location as they were is the model's reading (log entry 18: R63 says that no claim about such a run can be
proved). -/
def Obligations.CommandFramesSetReceiverFlags : Prop :=
  (∀ (code : Code) (pad : Bool),
    decode (.wire ([true, false, false] ++ bitsMSB code ++ [pad])) = .ok (.frameCmd code))
  ∧ ∀ (code : Code) (s : State), ∃ rx, exec (.frameCmd code) s = .next (s.setRx rx)
      ∧ rx.buf = s.rx.buf ∧ rx.prevCsN = s.rx.prevCsN ∧ rx.prevSclk = s.rx.prevSclk
      ∧ rx.sys = (if code = 0x00#8 then some false else if code = 0x01#8 then some true else s.rx.sys)
      ∧ rx.lcd = (if code = 0x02#8 then some false else if code = 0x03#8 then some true else s.rx.lcd)
      ∧ rx.refused = (s.rx.refused || decide (0x03 < code.toNat))
      ∧ ∀ a, rx.mem.read a = if code = 0x00#8 then none else s.rx.mem.read a

/-- R64 and R54. A data frame of either width inside the memory writes its nibbles to its locations, most significant
first, as known values while the oscillator is known to be on and as unknown otherwise; every other location and
everything else is unchanged. The bits of either frame decode to it, and those of a frame that would pass `0x3F` do
not. -/
def Obligations.DataFramesWriteTheirLocationsOnly : Prop :=
  (∀ (addr : Addr) (v : Nibble) (s : State), s.rx.mem.wf →
    ∃ m, exec (.frameData4 addr v) s = .next (s.setRx { s.rx with mem := m })
      ∧ m.read addr.toNat = (if s.rx.sys = some true then some v else none)
      ∧ ∀ a, a ≠ addr.toNat → m.read a = s.rx.mem.read a)
  ∧ (∀ (addr : Addr) (v : Nibble), decode (.wire (frameBits (.data4 addr v))) = .ok (.frameData4 addr v))
  ∧ (∀ (addr : Addr) (v : Pattern), decode (.wire (frameBits (.data16 addr v))) =
      if addr.toNat + 4 ≤ 64 then .ok (.frameData16 addr v) else .error .passesEnd)
  ∧ ∀ (addr : Addr) (v : Pattern) (s : State), s.rx.mem.wf → addr.toNat + 4 ≤ 64 →
    ∃ m, exec (.frameData16 addr v) s = .next (s.setRx { s.rx with mem := m })
      ∧ (∀ j, j < 4 → m.read (addr.toNat + j) =
          if s.rx.sys = some true then some (v.extractLsb' (4 * (3 - j)) 4) else none)
      ∧ ∀ a, a < addr.toNat ∨ addr.toNat + 4 ≤ a → m.read a = s.rx.mem.read a

/-- The frame of the three wire instructions: whatever the receiver does, no field of the block, no input and no
configuration changes, and neither do the receiver's bit buffer and remembered lines (R57). A 16-bit frame that would
pass `0x3F` is malformed and the receiver forgets everything (R65). -/
def Obligations.WireFramesLeaveTheBlockUnchanged : Prop :=
  (∀ (i : Instr) (f : Frame) (s t : State), wireFrame i = some f → exec i s = .next t →
    t = s.setRx t.rx ∧ t.rx.buf = s.rx.buf ∧ t.rx.prevCsN = s.rx.prevCsN ∧ t.rx.prevSclk = s.rx.prevSclk)
  ∧ ∀ (addr : Addr) (v : Pattern) (s : State), 64 < addr.toNat + 4 →
      exec (.frameData16 addr v) s = .next (s.setRx { s.rx with mem := [], sys := none, lcd := none })

/-- R65. A bit sequence that the decoder rejects makes the receiver forget every location and both flags, and nothing
else changes. -/
def Obligations.MalformedFramesForgetEverything : Prop :=
  ∀ (bits : List Bool) (e : DecodeError) (s : State), decode (.wire bits) = .error e →
    ∃ rx, interpret bits s = .next (s.setRx rx) ∧ (∀ a, rx.mem.read a = none) ∧ rx.sys = none ∧ rx.lcd = none
      ∧ rx.refused = s.rx.refused ∧ rx.buf = s.rx.buf ∧ rx.prevCsN = s.rx.prevCsN ∧ rx.prevSclk = s.rx.prevSclk

/-- The canonical form says what it should: two memories in canonical form that read alike everywhere are equal (the
model's own form of R61's memory, log entry 6). -/
def Obligations.MemoriesThatReadAlikeAreEqual : Prop :=
  ∀ m m' : Memory, m.wf → m'.wf → (∀ a, m.read a = m'.read a) → m = m'

/-- R57. A data frame, and a command frame with one of the four named codes, received twice leaves what it leaves when
received once. -/
def Obligations.FramesAreIdempotent : Prop :=
  ∀ (f : Frame) (rx : Rx), rx.mem.wf → f.inRange = true → (∀ code, f = .cmd code → code.toNat ≤ 0x03) →
    (rx.apply f).apply f = rx.apply f

/-- R195. After all frames of an accepted `SETPT k`, with the oscillator on, every cluster location holds 0 but that of
`k`, which holds its packed bit; no other location changes; for cluster sizes up to 3 exactly one bit of all clusters
is set; for size 4 and a last-in-cluster index the value is 13. -/
def Obligations.SetptLightsExactlyOneIndicator : Prop :=
  ∀ (c : Config) (index : BitVec 4) (rx : Rx) (fs : List Frame),
    rx.mem.wf → rx.sys = some true → index.toNat < c.pointCount → expand c (.setpt index) = some (.ok fs) →
    (∀ j, j < c.clusterCount → (rx.applyAll fs).mem.read (0x29 + 2 * j) =
      some (if j = index.toNat / c.clusterSize then packBit (rawBit c index.toNat) else 0#4))
    ∧ (∀ a, (∀ j, j < c.clusterCount → a ≠ 0x29 + 2 * j) → (rx.applyAll fs).mem.read a = rx.mem.read a)
    ∧ (rx.applyAll fs).sys = some true
    ∧ (c.clusterSize ≤ 3 → ∃! p : Nat × Nat, p.1 < c.clusterCount ∧ p.2 < 4 ∧
        ∃ v, (rx.applyAll fs).mem.read (0x29 + 2 * p.1) = some v ∧ v.getLsbD p.2 = true)
    ∧ (c.clusterSize = 4 → index.toNat % 4 = 3 →
        (rx.applyAll fs).mem.read (0x29 + 2 * (index.toNat / 4)) = some 13#4)

/-- R192, at the receiver. After all frames of `FILL`, with the oscillator on, locations `0x00` to `0x27` hold `0xF` for
`on` and 0 for `off`, and nothing else at the receiver changes. -/
def Obligations.FillReachesTheCellsOnly : Prop :=
  ∀ (c : Config) (on : Bool) (rx : Rx) (fs : List Frame), rx.mem.wf → rx.sys = some true →
    expand c (.fill on) = some (.ok fs) →
    (∀ a, (rx.applyAll fs).mem.read a = if a < 0x28 then some (if on then 0xF#4 else 0x0#4) else rx.mem.read a)
    ∧ rx.applyAll fs = { rx with mem := (rx.applyAll fs).mem }

/-- R171. A `POINT` that sends a frame replaces the whole location of its cluster, sibling bits and all, and leaves
every other location and everything else at the receiver unchanged. -/
def Obligations.PointReplacesItsWholeCluster : Prop :=
  ∀ (c : Config) (index : BitVec 4) (on : Bool) (rx : Rx) (fs : List Frame),
    rx.mem.wf → rx.sys = some true → index.toNat < c.pointCount → expand c (.point index on) = some (.ok fs) →
    (∀ a, (rx.applyAll fs).mem.read a =
      if a = 0x29 + 2 * (index.toNat / c.clusterSize) then
        some (if on then packBit (rawBit c index.toNat) else 0#4)
      else rx.mem.read a)
    ∧ rx.applyAll fs = { rx with mem := (rx.applyAll fs).mem }

/-- R255. The words of the required boot sequence; after its frames, from any receiver content, the oscillator and the
LCD drive are on, every cell and cluster location is 0, and every other location is as it was before. -/
def Obligations.BootSequenceMakesTheMapKnown : Prop :=
  bootSequence.map encode =
    [.request 0x00000001#32, .request 0x00000003#32, .request 0xC0000000#32, .request 0x80000000#32]
  ∧ ∀ (c : Config) (rx : Rx), rx.mem.wf →
    (rx.applyAll (framesOf c bootSequence)).sys = some true ∧ (rx.applyAll (framesOf c bootSequence)).lcd = some true
    ∧ ∀ a, (rx.applyAll (framesOf c bootSequence)).mem.read a =
        if a < 0x28 ∨ ∃ k, k < c.clusterCount ∧ a = 0x29 + 2 * k then some 0#4 else rx.mem.read a

/-! ### Reset and the ports -/

/-- R251. The reset values of every field and of the outputs; `req_ready` is 1 exactly when `rst` is 0. -/
def Obligations.ResetValues : Prop :=
  ∀ c : Config, let s := State.resetWith c
    s.phase = .idle ∧ s.timer = 0 ∧ s.shreg = 0#25 ∧ s.nbits = 0 ∧ s.pend = [] ∧ s.csN = true ∧ s.sclk = true
    ∧ s.sdata = false ∧ s.err = false ∧ s.cause = Cause.none ∧ s.busy = false ∧ s.status = 0x00#8
    ∧ ∀ l, ({ s with inputs := l }).reqReady = !((l.headD PortIn.quiet).rst)

/-- R250. At an edge with `rst = 1`, from any state and whatever the request port carries, every field of the block
takes its reset value; the configuration stays; and the receiver keeps its content unless a frame is cut or its power
goes. -/
def Obligations.ResetEdgeResetsTheBlockOnly : Prop :=
  ∀ s : State, s.input.rst = true → ∃ t, step s = .next t
    ∧ t = { State.resetWith s.cfg with rx := t.rx, inputs := s.inputs.tail }
    ∧ (s.csN = true → s.rx.prevCsN = true → s.input.powerLoss = false → t.rx.content = s.rx.content)

/-- R66 and R252. A reset edge while chip-select is asserted makes the receiver forget every location and both flags,
whatever bits it has received, and drops the frames still to be sent; both lines go to 1. -/
def Obligations.CutFrameMakesTheReceiverForget : Prop :=
  ∀ s : State, s.input.rst = true → s.csN = false → ∃ t, step s = .next t
    ∧ (∀ a, t.rx.mem.read a = none) ∧ t.rx.sys = none ∧ t.rx.lcd = none ∧ t.rx.refused = s.rx.refused
    ∧ t.pend = [] ∧ t.csN = true ∧ t.sclk = true ∧ t.phase = .idle

/-- R67. A power loss returns the receiver to its power-on values, all but `RX.refused`, which it never clears; the
block goes on as without it. That the power goes after the cycle's sampling is the model's choice (log entry 7). -/
def Obligations.PowerLossClearsTheReceiver : Prop :=
  ∀ s : State, s.input.powerLoss = true → ∃ t, step s = .next t
    ∧ t.rx = { Rx.powerOn with refused := t.rx.refused } ∧ (s.rx.refused = true → t.rx.refused = true)
    ∧ ∃ u, step { s with inputs := { s.input with powerLoss := false } :: s.inputs.tail } = .next u
        ∧ t = u.setRx t.rx ∧ t.rx.refused = u.rx.refused

/-- R30, R31, R33 and R221. `busy` is 1 exactly outside `IDLE`; `req_ready` is 1 exactly in `IDLE` with `rst = 0`; the
status word has `BUSY` in bit 0, `ERR` in bit 1, the cause's code in bits 4 to 2, zeros in bits 7 to 5; the six codes; and
the output ports carry these values and the three lines (R20). -/
def Obligations.StatusWordFields : Prop :=
  ∀ s : State, (s.busy = true ↔ s.phase ≠ .idle) ∧ (s.reqReady = true ↔ s.phase = .idle ∧ s.input.rst = false)
    ∧ (s.status.getLsbD 0 = true ↔ s.phase ≠ .idle) ∧ s.status.getLsbD 1 = s.err
    ∧ s.status.extractLsb' 5 3 = 0#3
    ∧ (s.cause = .none → s.status.extractLsb' 2 3 = 0#3) ∧ (s.cause = .reservedOp → s.status.extractLsb' 2 3 = 1#3)
    ∧ (s.cause = .badWidth → s.status.extractLsb' 2 3 = 2#3) ∧ (s.cause = .addrRange → s.status.extractLsb' 2 3 = 3#3)
    ∧ (s.cause = .badCell → s.status.extractLsb' 2 3 = 4#3) ∧ (s.cause = .badPoint → s.status.extractLsb' 2 3 = 5#3)
    ∧ s.outputs.reqReady = s.reqReady ∧ s.outputs.busy = s.busy ∧ s.outputs.status = s.status
    ∧ s.outputs.csN = s.csN ∧ s.outputs.sclk = s.sclk ∧ s.outputs.sdata = s.sdata

/-! ### The step -/

/-- R113. A step runs the decoded instruction: in `IDLE`, without reset, the request word on the port is decoded and the
block's next state is `exec` of it; the receiver then looks at the lines, and the cycle's inputs are used up. With
nothing offered the block stays as it is. The premise on the receiver is part of `State.Tracked`. -/
def Obligations.StepRunsTheOfferedRequest : Prop :=
  (∀ s t : State, s.phase = .idle → s.input.rst = false → s.input.reqValid = true → s.rx.prevCsN = true →
    exec (decodeRequest s.input.reqWord) s = .next t →
    step s = .next (endCycle (t.setRx (t.rx.sample t.csN t.sclk t.sdata))))
  ∧ ∀ s : State, s.phase = .idle → s.input.rst = false → s.input.reqValid = false → ∃ t, step s = .next t
    ∧ t = { s with rx := t.rx, inputs := s.inputs.tail }

/-- A step runs the received frame: at the edge that ends a frame, the receiver's bits are decoded, and the next state is
`exec` of that frame at the state after the block's edge; the cycle's inputs are then used up. -/
def Obligations.StepRunsTheReceivedFrame : Prop :=
  ∀ (s t : State) (i : Instr), s.phase = .high → s.timer = 0 → s.nbits = 1 → s.sclk = true → s.input.rst = false →
    s.rx.prevCsN = false → s.rx.prevSclk = true → decode (.wire s.rx.buf) = .ok i →
    exec i (highEdge s) = .next t → step s = .next (endCycle t)

/-- R115. The setup phase's edge: the timer counts down and nothing else of the block changes, or, when it has run out,
the clock falls, the low phase of the first bit begins and its timer is `NP - 1`. -/
def Obligations.SetupEdgeDropsTheClockInTime : Prop :=
  ∀ s : State, s.phase = .setup → s.input.rst = false → ∃ t, step s = .next t
    ∧ t = (if s.timer = 0 then
        { s with phase := .low, sclk := false, timer := s.cfg.np - 1, rx := t.rx, inputs := s.inputs.tail }
      else { s with timer := s.timer - 1, rx := t.rx, inputs := s.inputs.tail })

/-- R116. The low phase's edge: the data line takes the top bit of the register exactly one cycle after the clock fell,
and the clock rises after `NP` cycles; the two never happen at one edge. -/
def Obligations.LowEdgeSetsDataThenRaisesTheClock : Prop :=
  ∀ s : State, s.phase = .low → s.input.rst = false → ∃ t, step s = .next t
    ∧ t.sdata = (if s.timer = s.cfg.np - 1 then s.shreg.getLsbD 24 else s.sdata)
    ∧ t = (if s.timer = 0 then
        { s with phase := .high, sclk := true, timer := s.cfg.np - 1, sdata := t.sdata, rx := t.rx, inputs := s.inputs.tail }
      else { s with timer := s.timer - 1, sdata := t.sdata, rx := t.rx, inputs := s.inputs.tail })
    ∧ ¬(s.timer = s.cfg.np - 1 ∧ s.timer = 0)

/-- R117. The high phase's edge: after `NP` cycles the register shifts a 0 in, the count drops, and either the next bit
starts or, after the last one, chip-select is deasserted with the clock high. -/
def Obligations.HighEdgeShiftsOrEndsTheFrame : Prop :=
  ∀ s : State, s.phase = .high → s.input.rst = false → ∃ t, step s = .next t
    ∧ (0 < s.timer → t = { s with timer := s.timer - 1, rx := t.rx, inputs := s.inputs.tail })
    ∧ (s.timer = 0 → (∀ i, i < 24 → t.shreg.getLsbD (i + 1) = s.shreg.getLsbD i) ∧ t.shreg.getLsbD 0 = false
        ∧ t = (if s.nbits = 1 then
            { s with shreg := t.shreg, nbits := 0, csN := true, phase := .gap, timer := s.cfg.ng - 1, rx := t.rx,
                     inputs := s.inputs.tail }
          else
            { s with shreg := t.shreg, nbits := s.nbits - 1, phase := .low, sclk := false, timer := s.cfg.np - 1,
                     rx := t.rx, inputs := s.inputs.tail }))

/-- R118 with R114. The gap's edge: after `NG` cycles the next frame of the request starts, or the block is idle. -/
def Obligations.GapEdgeStartsTheNextFrameOrGoesIdle : Prop :=
  ∀ s : State, s.phase = .gap → s.input.rst = false → ∃ t, step s = .next t
    ∧ (0 < s.timer → t = { s with timer := s.timer - 1, rx := t.rx, inputs := s.inputs.tail })
    ∧ (s.timer = 0 → s.pend = [] → t = { s with phase := .idle, rx := t.rx, inputs := s.inputs.tail })
    ∧ ∀ f fs, s.timer = 0 → s.pend = f :: fs →
        t = { s.load f with pend := fs, csN := false, phase := .setup, timer := s.cfg.ns - 1, rx := t.rx,
                            inputs := s.inputs.tail }

/-- R124, R253 and R256. While `req_ready` is 0, what the host drives on the request port has no effect: the next state
is the same for every `req_valid` and `req_word`. -/
def Obligations.RequestPortIsIgnoredWhileNotReady : Prop :=
  ∀ (s : State) (valid : Bool) (w : Word), s.reqReady = false → step (s.withRequest valid w) = step s

/-- R222. A failed request, at the step that accepts it: the block stays idle, the first cause is recorded and a later
one is not, and nothing else of the block changes; and once set, the flag and the cause stay until a reset, which clears both. -/
def Obligations.FirstErrorIsKeptUntilReset : Prop :=
  (∀ (s : State) (c : Cause), s.phase = .idle → s.input.rst = false → s.input.reqValid = true →
    expand s.cfg (decodeRequest s.input.reqWord) = some (.err c) → ∃ t, step s = .next t
      ∧ t = { s with err := true, cause := (if s.err then s.cause else c), rx := t.rx, inputs := s.inputs.tail })
  ∧ (∀ s : State, s.input.rst = false → s.err = true → ∃ t, step s = .next t ∧ t.err = true ∧ t.cause = s.cause)
  ∧ ∀ s : State, s.input.rst = true → ∃ t, step s = .next t ∧ t.err = false ∧ t.cause = Cause.none

/-- R258. No step and no instruction changes the configuration. -/
def Obligations.ConfigurationNeverChanges : Prop :=
  (∀ s t : State, step s = .next t → t.cfg = s.cfg)
  ∧ ∀ (i : Instr) (s t : State), exec i s = .next t → t.cfg = s.cfg

/-- R122. Without reset, from a state that keeps the invariant: the data line changes only at the edge that ends the
first cycle of a low phase, no edge of the clock coincides with a change of the data line, and no edge of chip-select
coincides with an edge of the clock. -/
def Obligations.LinesNeverChangeTogether : Prop :=
  ∀ s t : State, s.Inv → s.input.rst = false → step s = .next t →
    (t.sdata ≠ s.sdata → s.phase = .low ∧ s.timer = s.cfg.np - 1 ∧ t.sclk = false ∧ s.sclk = false ∧ t.csN = s.csN)
    ∧ (t.csN ≠ s.csN → t.sclk = true ∧ s.sclk = true)

/-! ### Invariants -/

/-- R126, with R24, R25, R27 and R29: every step keeps the invariant, whatever the inputs. -/
def Obligations.EveryStepKeepsTheInvariant : Prop :=
  ∀ s t : State, s.Inv → step s = .next t → t.Inv

/-- The invariant holds after reset, in every configuration, and so does the receiver's tie to the block. -/
def Obligations.InvariantHoldsAtReset : Prop :=
  State.reset.Inv ∧ State.reset.Tracked ∧ ∀ c : Config, (State.resetWith c).Inv ∧ (State.resetWith c).Tracked

/-- R125, as an invariant: as long as the peripheral keeps its power, every step (a reset edge too) keeps the receiver
in step with the block: what it has sampled and what is still to come make up one frame inside the memory. -/
def Obligations.EveryStepKeepsTheReceiverTracked : Prop :=
  ∀ s t : State, s.Inv → s.Tracked → s.input.powerLoss = false → step s = .next t → t.Tracked

/-- R65 and R125. While the peripheral keeps its power: without reset, chip-select is deasserted only after the receiver
has sampled exactly the bits of one frame inside the memory, and the receiver's content is then what that frame makes of
it, so the block never makes the receiver see a malformed frame; and in every step in which chip-select does not rise (so
none that ends or cuts a frame), the receiver's content stays as it is (R62). -/
def Obligations.EveryFinishedFrameIsReceivedWhole : Prop :=
  (∀ s t : State, s.Inv → s.Tracked → s.input.rst = false → s.input.powerLoss = false → s.csN = false →
    step s = .next t → t.csN = true →
    ∃ f : Frame, f.inRange = true ∧ t.rx.buf = frameBits f ∧ t.rx.content = (s.rx.apply f).content)
  ∧ ∀ s t : State, s.Tracked → s.input.powerLoss = false → step s = .next t → s.csN = true ∨ t.csN = false →
    t.rx.content = s.rx.content

/-! ### Whole frames and whole requests -/

/-- R120 and R121. From the first cycle of a setup phase, without reset: the phase lasts `NS` cycles, then each bit has
the clock low for `NP` cycles with the data line set from the second of them, and high for `NP` cycles; then
chip-select is deasserted for `NG` cycles; then the next frame has its first cycle or the block is idle. A phase of
`NP` cycles is at least `T_PHASE_MIN` long. -/
def Obligations.EveryPhaseLastsItsCycles : Prop :=
  (∀ c : Config, c.params.tPhaseMinNs * c.params.fClkHz ≤ c.np * 1000000000)
  ∧ ∀ s : State, s.phase = .setup → s.timer = s.cfg.ns - 1 → s.csN = false → s.sclk = true → 1 ≤ s.nbits →
    s.nbits ≤ 25 → s.noReset (frameCycles s.cfg s.nbits) →
    (∀ k, k < s.cfg.ns → ∃ u, Sys2Proof.core.run k s = .next u
      ∧ u.phase = .setup ∧ u.csN = false ∧ u.sclk = true)
    ∧ (∀ j k, j < s.nbits → k < s.cfg.np → ∃ u, Sys2Proof.core.run (s.cfg.ns + 2 * s.cfg.np * j + k) s = .next u
      ∧ u.phase = .low ∧ u.csN = false ∧ u.sclk = false ∧ (1 ≤ k → u.sdata = s.shreg.getMsbD j))
    ∧ (∀ j k, j < s.nbits → k < s.cfg.np →
        ∃ u, Sys2Proof.core.run (s.cfg.ns + 2 * s.cfg.np * j + s.cfg.np + k) s = .next u
      ∧ u.phase = .high ∧ u.csN = false ∧ u.sclk = true ∧ u.sdata = s.shreg.getMsbD j)
    ∧ (∀ k, k < s.cfg.ng → ∃ u, Sys2Proof.core.run (s.cfg.ns + 2 * s.cfg.np * s.nbits + k) s = .next u
      ∧ u.phase = .gap ∧ u.csN = true ∧ u.sclk = true ∧ u.pend = s.pend)
    ∧ ∃ u, Sys2Proof.core.run (frameCycles s.cfg s.nbits) s = .next u
      ∧ (s.pend = [] → u.phase = .idle)
      ∧ ∀ f fs, s.pend = f :: fs → u.phase = .setup ∧ u.timer = s.cfg.ns - 1 ∧ u.csN = false ∧ u.sclk = true
          ∧ u.pend = fs ∧ u.shreg = leftAlign (frameBits f) ∧ u.nbits = (frameBits f).length

/-- R121, R69 and R58, the headline. A request accepted in `IDLE` whose expansion is a non-empty list of frames keeps
the block busy for exactly the cycles of its frames, whatever the host offers meanwhile, and is idle again in the cycle
after; the error pair is unchanged; and the receiver's content is then what the whole frames make of it, one after the
other in the order of the expansion. -/
def Obligations.AcceptedRequestsAreDeliveredInTime : Prop :=
  ∀ (s : State) (f : Frame) (fs : List Frame),
    s.Inv → s.Tracked → s.phase = .idle → s.input.reqValid = true →
    expand s.cfg (decodeRequest s.input.reqWord) = some (.ok (f :: fs)) →
    s.noReset (1 + requestCycles s.cfg (f :: fs)) → s.powered (1 + requestCycles s.cfg (f :: fs)) →
    (∀ k, 1 ≤ k → k ≤ requestCycles s.cfg (f :: fs) → ∃ u, Sys2Proof.core.run k s = .next u ∧ u.busy = true)
    ∧ ∃ t, Sys2Proof.core.run (1 + requestCycles s.cfg (f :: fs)) s = .next t
      ∧ t.phase = .idle ∧ t.err = s.err ∧ t.cause = s.cause
      ∧ t.inputs = s.inputs.drop (1 + requestCycles s.cfg (f :: fs))
      ∧ t.rx.content = (s.rx.applyAll (f :: fs)).content

/-- R262. The busy cycles of each request, as formulas and for the default configuration. -/
def Obligations.BusyCyclesOfEachRequest : Prop :=
  (∀ (c : Config) (i : Instr) (fs : List Frame), expand c i = some (.ok fs) →
    ((∃ code, i = .cmd code) → requestCycles c fs = frameCycles c 12)
    ∧ ((∃ addr nib, i = .data4 addr nib) → requestCycles c fs = frameCycles c 13)
    ∧ ((∃ addr value, i = .data16 addr value) → requestCycles c fs = frameCycles c 25)
    ∧ ((∃ pos pattern, i = .cell pos pattern) → requestCycles c fs = frameCycles c 25)
    ∧ ((∃ index on, i = .point index on) → 0 < c.clusterCount → requestCycles c fs = frameCycles c 13)
    ∧ (i = .rstpts → requestCycles c fs = c.clusterCount * frameCycles c 13)
    ∧ ((∃ index, i = .setpt index) → 0 < c.clusterCount →
        requestCycles c fs = (c.clusterCount + 1) * frameCycles c 13)
    ∧ ((∃ on, i = .fill on) → requestCycles c fs = 10 * frameCycles c 25))
  ∧ (∀ (c : Config) (i : Instr) (e : Expansion), expand c i = some e → e.frames = [] → requestCycles c e.frames = 0)
  ∧ frameCycles Config.default 12 = 52 ∧ frameCycles Config.default 13 = 56 ∧ frameCycles Config.default 25 = 104
end

