-- ==== Sys2Proof/Laws/Bits.lean ====
section
/-! SUPPORT. Bit sequences: reading what was written most significant first, and the left-aligned shift register. -/

namespace Sys2Proof

@[simp] theorem bitsMSB_length {n : Nat} (v : BitVec n) : (bitsMSB v).length = n := by simp [bitsMSB]

theorem bitsMSB_getElem? {n : Nat} (v : BitVec n) (i : Nat) :
    (bitsMSB v)[i]? = if i < n then some (v.getMsbD i) else none := by
  unfold bitsMSB
  split <;> simp_all

theorem bitsMSB_getD {n : Nat} (v : BitVec n) (i : Nat) : (bitsMSB v).getD i false = v.getMsbD i := by
  simp only [List.getD_eq_getElem?_getD, bitsMSB_getElem?]
  split
  · rfl
  · simp_all

theorem readMSB_getLsbD {n : Nat} (bits : List Bool) (h : bits.length ≤ n) (i : Nat) :
    (readMSB n bits).getLsbD i = (decide (i < bits.length) && bits.getD (bits.length - 1 - i) false) := by
  simp only [readMSB, BitVec.getLsbD_setWidth, BitVec.getLsbD_ofBoolListBE]
  by_cases hi : i < bits.length
  · simp [hi, show i < n by omega]
  · simp [hi]

theorem readMSB_getMsbD {n : Nat} (bits : List Bool) (h : bits.length = n) (i : Nat) :
    (readMSB n bits).getMsbD i = bits.getD i false := by
  subst h; simp [readMSB]

/-- Reading most significant first undoes `BitsMSB` (R9). -/
@[simp] theorem readMSB_bitsMSB {n : Nat} (v : BitVec n) : readMSB n (bitsMSB v) = v := by
  apply BitVec.eq_of_getMsbD_eq
  intro i _
  rw [readMSB_getMsbD _ (bitsMSB_length v), bitsMSB_getD]

/-- `BitsMSB` undoes reading most significant first, for a sequence of the value's width. -/
theorem bitsMSB_readMSB {n : Nat} (bits : List Bool) (h : bits.length = n) : bitsMSB (readMSB n bits) = bits := by
  apply List.ext_getElem?
  intro i
  rw [bitsMSB_getElem?, readMSB_getMsbD _ h]
  split
  · rw [List.getD_eq_getElem?_getD]
    simp [*]
  · simp; omega

theorem bitsMSB_append {m n : Nat} (u : BitVec m) (v : BitVec n) : bitsMSB (u ++ v) = bitsMSB u ++ bitsMSB v := by
  apply List.ext_getElem?
  intro i
  rw [bitsMSB_getElem?, List.getElem?_append, bitsMSB_getElem?, bitsMSB_getElem?, bitsMSB_length,
    BitVec.getMsbD_append]
  by_cases h : i < m
  · have : i < m + n := by omega
    simp [h, this]
  · by_cases h2 : i - m < n
    · have : i < m + n := by omega
      simp [h, h2, this]
    · have : ¬ i < m + n := by omega
      simp [h, h2, this]

/-- The bits of a command frame, one by one (R87). -/
theorem frameBits_cmd (c : Code) : frameBits (.cmd c) =
    [true, false, false, c.getMsbD 0, c.getMsbD 1, c.getMsbD 2, c.getMsbD 3, c.getMsbD 4, c.getMsbD 5, c.getMsbD 6,
      c.getMsbD 7, false] := rfl

/-- The bits of a 4-bit data frame, one by one (R88). -/
theorem frameBits_data4 (a : Addr) (v : Nibble) : frameBits (.data4 a v) =
    [true, false, true, a.getMsbD 0, a.getMsbD 1, a.getMsbD 2, a.getMsbD 3, a.getMsbD 4, a.getMsbD 5, v.getMsbD 0,
      v.getMsbD 1, v.getMsbD 2, v.getMsbD 3] := rfl

/-- The bits of a 16-bit data frame, one by one (R88). -/
theorem frameBits_data16 (a : Addr) (v : Pattern) : frameBits (.data16 a v) =
    [true, false, true, a.getMsbD 0, a.getMsbD 1, a.getMsbD 2, a.getMsbD 3, a.getMsbD 4, a.getMsbD 5, v.getMsbD 0,
      v.getMsbD 1, v.getMsbD 2, v.getMsbD 3, v.getMsbD 4, v.getMsbD 5, v.getMsbD 6, v.getMsbD 7, v.getMsbD 8,
      v.getMsbD 9, v.getMsbD 10, v.getMsbD 11, v.getMsbD 12, v.getMsbD 13, v.getMsbD 14, v.getMsbD 15] := rfl

@[simp] theorem frameBits_cmd_length (c : Code) : (frameBits (.cmd c)).length = 12 := by simp [frameBits]
@[simp] theorem frameBits_data4_length (a : Addr) (v : Nibble) : (frameBits (.data4 a v)).length = 13 := by
  simp [frameBits]
@[simp] theorem frameBits_data16_length (a : Addr) (v : Pattern) : (frameBits (.data16 a v)).length = 25 := by
  simp [frameBits]

namespace Machine

/-- The left-aligned register holds bit `i` of the sequence at `i` places from its top, and 0 below it (R119). -/
theorem leftAlign_getMsbD (bits : List Bool) (h : bits.length ≤ 25) (i : Nat) :
    (leftAlign bits).getMsbD i = bits.getD i false := by
  unfold leftAlign readMSB
  rw [BitVec.getMsbD_shiftLeft, BitVec.getMsbD_setWidth]
  simp only [BitVec.getMsbD_ofBoolListBE]
  have e : i + (25 - bits.length) + bits.length - 25 = i := by omega
  by_cases h1 : i < bits.length
  · simp [e]
  · simp [e, List.getD_eq_getElem?_getD, List.getElem?_eq_none (Nat.le_of_not_lt h1)]

/-- The first bits of the left-aligned register are the sequence. -/
theorem leftAlign_take (bits : List Bool) (h : bits.length ≤ 25) :
    (bitsMSB (leftAlign bits)).take bits.length = bits := by
  apply List.ext_getElem?
  intro i
  rw [List.getElem?_take]
  split
  · rw [bitsMSB_getElem?, leftAlign_getMsbD _ h, List.getD_eq_getElem?_getD]
    have : i < 25 := by omega
    simp [*]
  · rw [List.getElem?_eq_none]; omega

/-- Nothing stands below the sequence in the left-aligned register (R25, R119). -/
theorem leftAlign_shiftLeft_length (bits : List Bool) (h : bits.length ≤ 25) :
    leftAlign bits <<< bits.length = 0#25 := by
  apply BitVec.eq_of_getMsbD_eq
  intro i _
  rw [BitVec.getMsbD_shiftLeft, leftAlign_getMsbD _ h, List.getD_eq_getElem?_getD, List.getElem?_eq_none] <;>
    simp

/-- One shift of the register drops its first bit (R117). -/
theorem bitsMSB_take_shiftLeft_one (r : ShiftReg) (n : Nat) (hn : n ≤ 25) :
    (bitsMSB (r <<< 1)).take (n - 1) = ((bitsMSB r).take n).tail := by
  apply List.ext_getElem?
  intro i
  rw [List.getElem?_take, List.getElem?_tail, List.getElem?_take, bitsMSB_getElem?, bitsMSB_getElem?,
    BitVec.getMsbD_shiftLeft]
  by_cases h : i + 1 < n
  · have h1 : i < n - 1 := by omega
    have h2 : i < 25 := by omega
    have h3 : i + 1 < 25 := by omega
    simp [h, h1, h2, h3]
  · have h1 : ¬ i < n - 1 := by omega
    simp [h, h1]

end Machine

end Sys2Proof
end

