-- ==== Sys2Proof/Laws/Memory.lean ====
section
/-! SUPPORT. The display memory: read after write, and every operation keeps the canonical form. -/

namespace Sys2Proof.Machine

@[simp] theorem Memory.read_nil (a : Nat) : Memory.read [] a = none := rfl

theorem Memory.read_cons (b : Nat) (x : BitVec 8) (m : Memory) (a : Nat) :
    Memory.read ((b, x) :: m) a = if b = a then some (x.setWidth 4) else Memory.read m a := rfl

/-- A location below every listed address is unknown. -/
theorem Memory.read_eq_none_of_lt {m : Memory} {a : Nat} (h : ∀ x ∈ m, a < x.1) : Memory.read m a = none := by
  induction m with
  | nil => rfl
  | cons c m ih =>
    have hc := h c (by simp)
    rw [Memory.read_cons, if_neg (by omega), ih fun x hx => h x (by simp [hx])]

@[simp] theorem Memory.read_consCell_same (a : Nat) (n : Nibble) (m : Memory) :
    Memory.read (Memory.consCell a (some n) m) a = some n := by
  simp [Memory.consCell, Memory.read_cons]

theorem Memory.read_consCell_other {a c : Nat} (h : a ≠ c) (v : Option Nibble) (m : Memory) :
    Memory.read (Memory.consCell a v m) c = Memory.read m c := by
  cases v <;> simp [Memory.consCell, Memory.read_cons, h]

/-- A write leaves every other location alone. -/
theorem Memory.read_write_other {a c : Nat} (h : a ≠ c) (m : Memory) (v : Option Nibble) :
    Memory.read (Memory.write m a v) c = Memory.read m c := by
  induction m with
  | nil => simp [Memory.write, Memory.read_consCell_other h]
  | cons cell m ih =>
    obtain ⟨b, x⟩ := cell
    simp only [Memory.write]
    split
    · rw [Memory.read_cons, Memory.read_cons, ih]
    · split
      · subst_vars; rw [Memory.read_consCell_other h, Memory.read_cons, if_neg h]
      · rw [Memory.read_consCell_other h]

/-- A read after a write to the same location gives what was written, a known nibble or unknown. -/
theorem Memory.read_write_same {m : Memory} (hm : m.wf) (a : Nat) (v : Option Nibble) :
    Memory.read (Memory.write m a v) a = v := by
  have cons_case : ∀ m' : Memory, (∀ x ∈ m', a < x.1) → Memory.read (Memory.consCell a v m') a = v := by
    intro m' h
    cases v with
    | none => simpa [Memory.consCell] using Memory.read_eq_none_of_lt h
    | some n => simp
  induction m with
  | nil => exact cons_case [] (by simp)
  | cons cell m ih =>
    obtain ⟨b, x⟩ := cell
    obtain ⟨hs, hr⟩ := hm
    rw [List.pairwise_cons] at hs
    simp only [Memory.write]
    split
    · rw [Memory.read_cons, if_neg (by omega)]
      exact ih ⟨hs.2, fun y hy => hr y (by simp [hy])⟩
    · split
      · subst_vars; exact cons_case m hs.1
      · apply cons_case
        intro y hy
        rcases List.mem_cons.mp hy with rfl | hy
        · show a < b; omega
        · have := hs.1 y hy; simp only at this; omega

/-- The addresses a write lists are the old ones and the written one. -/
theorem Memory.mem_write {m : Memory} {a : Nat} {v : Option Nibble} {x : Host.Cell} (h : x ∈ Memory.write m a v) :
    x ∈ m ∨ (x.1 = a ∧ x.2.toNat < 16) := by
  have cons_case : ∀ m' : Memory, x ∈ Memory.consCell a v m' → x ∈ m' ∨ (x.1 = a ∧ x.2.toNat < 16) := by
    intro m' h
    cases v with
    | none => exact .inl h
    | some n =>
      rcases List.mem_cons.mp h with rfl | h
      · exact .inr ⟨rfl, by have := n.isLt; simp only [BitVec.toNat_setWidth]; omega⟩
      · exact .inl h
  induction m with
  | nil => exact cons_case [] h
  | cons cell m ih =>
    obtain ⟨b, y⟩ := cell
    simp only [Memory.write] at h
    split at h
    · rcases List.mem_cons.mp h with rfl | h
      · exact .inl (by simp)
      · exact (ih h).imp (fun h => by simp [h]) id
    · split at h
      · exact (cons_case _ h).imp (fun h => by simp [h]) id
      · exact cons_case _ h

/-- A write inside the 64 locations keeps the canonical form. -/
theorem Memory.wf_write {m : Memory} (hm : m.wf) {a : Nat} (ha : a < 64) (v : Option Nibble) :
    (Memory.write m a v).wf := by
  refine ⟨?_, fun x hx => ?_⟩
  · have cons_case : ∀ m' : Memory, m'.Pairwise (fun x y => x.1 < y.1) → (∀ x ∈ m', a < x.1) →
        (Memory.consCell a v m').Pairwise (fun x y => x.1 < y.1) := by
      intro m' hs h
      cases v with
      | none => exact hs
      | some n => exact List.pairwise_cons.mpr ⟨h, hs⟩
    obtain ⟨hs, -⟩ := hm
    induction m with
    | nil => exact cons_case [] hs (by simp)
    | cons cell m ih =>
      obtain ⟨b, y⟩ := cell
      rw [List.pairwise_cons] at hs
      simp only [Memory.write]
      split
      · rename_i hlt
        refine List.pairwise_cons.mpr ⟨fun x hx => ?_, ih hs.2⟩
        rcases Memory.mem_write hx with h | h
        · exact hs.1 x h
        · show b < x.1; omega
      · split
        · subst_vars; exact cons_case m hs.2 hs.1
        · refine cons_case _ (List.pairwise_cons.mpr hs) fun x hx => ?_
          rcases List.mem_cons.mp hx with rfl | hx
          · show a < b; omega
          · have := hs.1 x hx; simp only at this; omega
  · rcases Memory.mem_write hx with h | h
    · exact hm.2 x h
    · exact ⟨by omega, h.2⟩

theorem Memory.wf_nil : Memory.wf [] := by simp [Memory.wf]

/-- Writing a run of locations inside the 64 keeps the canonical form. -/
theorem Memory.wf_writeFrom {m : Memory} (hm : m.wf) {a : Nat} {vs : List (Option Nibble)} (h : a + vs.length ≤ 64) :
    (Memory.writeFrom m a vs).wf := by
  induction vs generalizing m a with
  | nil => exact hm
  | cons v vs ih =>
    simp only [List.length_cons] at h
    exact ih (Memory.wf_write hm (by omega) v) (by omega)

/-- A run of writes leaves every location outside it alone. -/
theorem Memory.read_writeFrom_outside (m : Memory) {a c : Nat} {vs : List (Option Nibble)}
    (h : c < a ∨ a + vs.length ≤ c) : Memory.read (Memory.writeFrom m a vs) c = Memory.read m c := by
  induction vs generalizing m a with
  | nil => rfl
  | cons v vs ih =>
    simp only [List.length_cons] at h
    rw [Memory.writeFrom, ih _ (by omega), Memory.read_write_other (by omega)]

/-- A run of writes puts each content at its location. -/
theorem Memory.read_writeFrom_inside {m : Memory} (hm : m.wf) {a j : Nat} {vs : List (Option Nibble)}
    (hj : j < vs.length) (h : a + vs.length ≤ 64) : Memory.read (Memory.writeFrom m a vs) (a + j) = vs[j] := by
  induction vs generalizing m a j with
  | nil => simp at hj
  | cons v vs ih =>
    simp only [List.length_cons] at h hj
    rw [Memory.writeFrom]
    cases j with
    | zero =>
      rw [Memory.read_writeFrom_outside _ (by omega)]
      exact Memory.read_write_same hm a v
    | succ j =>
      have := ih (m := m.write a v) (a := a + 1) (j := j) (Memory.wf_write hm (by omega) v) (by omega) (by omega)
      rw [show a + (j + 1) = a + 1 + j by omega, this]
      rfl

end Sys2Proof.Machine
end

