-- ==== Sys2Proof/Laws/State.lean ====
section
/-! SUPPORT. One lemma per field and per named update of State and of the receiver, true by definition. -/

namespace Sys2Proof.Machine

section
variable (s : State) (rx : Rx) (f : Frame) (fs : List Frame) (c : Cause)

@[simp] theorem State.setRx_cfg : (s.setRx rx).cfg = s.cfg := rfl
@[simp] theorem State.setRx_phase : (s.setRx rx).phase = s.phase := rfl
@[simp] theorem State.setRx_timer : (s.setRx rx).timer = s.timer := rfl
@[simp] theorem State.setRx_shreg : (s.setRx rx).shreg = s.shreg := rfl
@[simp] theorem State.setRx_nbits : (s.setRx rx).nbits = s.nbits := rfl
@[simp] theorem State.setRx_pend : (s.setRx rx).pend = s.pend := rfl
@[simp] theorem State.setRx_csN : (s.setRx rx).csN = s.csN := rfl
@[simp] theorem State.setRx_sclk : (s.setRx rx).sclk = s.sclk := rfl
@[simp] theorem State.setRx_sdata : (s.setRx rx).sdata = s.sdata := rfl
@[simp] theorem State.setRx_err : (s.setRx rx).err = s.err := rfl
@[simp] theorem State.setRx_cause : (s.setRx rx).cause = s.cause := rfl
@[simp] theorem State.setRx_rx : (s.setRx rx).rx = rx := rfl
@[simp] theorem State.setRx_inputs : (s.setRx rx).inputs = s.inputs := rfl

@[simp] theorem State.start_cfg : (s.start f fs).cfg = s.cfg := rfl
@[simp] theorem State.start_phase : (s.start f fs).phase = .setup := rfl
@[simp] theorem State.start_timer : (s.start f fs).timer = s.cfg.ns - 1 := rfl
@[simp] theorem State.start_shreg : (s.start f fs).shreg = leftAlign (frameBits f) := rfl
@[simp] theorem State.start_nbits : (s.start f fs).nbits = (frameBits f).length := rfl
@[simp] theorem State.start_pend : (s.start f fs).pend = fs := rfl
@[simp] theorem State.start_csN : (s.start f fs).csN = false := rfl
@[simp] theorem State.start_sclk : (s.start f fs).sclk = s.sclk := rfl
@[simp] theorem State.start_sdata : (s.start f fs).sdata = s.sdata := rfl
@[simp] theorem State.start_err : (s.start f fs).err = s.err := rfl
@[simp] theorem State.start_cause : (s.start f fs).cause = s.cause := rfl
@[simp] theorem State.start_rx : (s.start f fs).rx = s.rx := rfl
@[simp] theorem State.start_inputs : (s.start f fs).inputs = s.inputs := rfl

@[simp] theorem State.resetBlock_cfg : s.resetBlock.cfg = s.cfg := rfl
@[simp] theorem State.resetBlock_phase : s.resetBlock.phase = .idle := rfl
@[simp] theorem State.resetBlock_timer : s.resetBlock.timer = 0 := rfl
@[simp] theorem State.resetBlock_shreg : s.resetBlock.shreg = 0#25 := rfl
@[simp] theorem State.resetBlock_nbits : s.resetBlock.nbits = 0 := rfl
@[simp] theorem State.resetBlock_pend : s.resetBlock.pend = [] := rfl
@[simp] theorem State.resetBlock_csN : s.resetBlock.csN = true := rfl
@[simp] theorem State.resetBlock_sclk : s.resetBlock.sclk = true := rfl
@[simp] theorem State.resetBlock_sdata : s.resetBlock.sdata = false := rfl
@[simp] theorem State.resetBlock_err : s.resetBlock.err = false := rfl
@[simp] theorem State.resetBlock_cause : s.resetBlock.cause = Cause.none := rfl
@[simp] theorem State.resetBlock_rx : s.resetBlock.rx = s.rx := rfl
@[simp] theorem State.resetBlock_inputs : s.resetBlock.inputs = s.inputs := rfl

@[simp] theorem endCycle_cfg : (endCycle s).cfg = s.cfg := rfl
@[simp] theorem endCycle_phase : (endCycle s).phase = s.phase := rfl
@[simp] theorem endCycle_timer : (endCycle s).timer = s.timer := rfl
@[simp] theorem endCycle_shreg : (endCycle s).shreg = s.shreg := rfl
@[simp] theorem endCycle_nbits : (endCycle s).nbits = s.nbits := rfl
@[simp] theorem endCycle_pend : (endCycle s).pend = s.pend := rfl
@[simp] theorem endCycle_csN : (endCycle s).csN = s.csN := rfl
@[simp] theorem endCycle_sclk : (endCycle s).sclk = s.sclk := rfl
@[simp] theorem endCycle_sdata : (endCycle s).sdata = s.sdata := rfl
@[simp] theorem endCycle_err : (endCycle s).err = s.err := rfl
@[simp] theorem endCycle_cause : (endCycle s).cause = s.cause := rfl
@[simp] theorem endCycle_inputs : (endCycle s).inputs = s.inputs.tail := rfl

end

section
variable (rx : Rx) (csN sclk sdata : Bool)

@[simp] theorem Rx.sample_mem : (rx.sample csN sclk sdata).mem = rx.mem := rfl
@[simp] theorem Rx.sample_sys : (rx.sample csN sclk sdata).sys = rx.sys := rfl
@[simp] theorem Rx.sample_lcd : (rx.sample csN sclk sdata).lcd = rx.lcd := rfl
@[simp] theorem Rx.sample_refused : (rx.sample csN sclk sdata).refused = rx.refused := rfl
@[simp] theorem Rx.sample_prevCsN : (rx.sample csN sclk sdata).prevCsN = rx.prevCsN := rfl
@[simp] theorem Rx.sample_prevSclk : (rx.sample csN sclk sdata).prevSclk = rx.prevSclk := rfl

@[simp] theorem Rx.remember_mem : (rx.remember csN sclk).mem = rx.mem := rfl
@[simp] theorem Rx.remember_sys : (rx.remember csN sclk).sys = rx.sys := rfl
@[simp] theorem Rx.remember_lcd : (rx.remember csN sclk).lcd = rx.lcd := rfl
@[simp] theorem Rx.remember_refused : (rx.remember csN sclk).refused = rx.refused := rfl
@[simp] theorem Rx.remember_buf : (rx.remember csN sclk).buf = rx.buf := rfl
@[simp] theorem Rx.remember_prevCsN : (rx.remember csN sclk).prevCsN = csN := rfl
@[simp] theorem Rx.remember_prevSclk : (rx.remember csN sclk).prevSclk = sclk := rfl

@[simp] theorem Rx.forget_mem : rx.forget.mem = [] := rfl
@[simp] theorem Rx.forget_sys : rx.forget.sys = none := rfl
@[simp] theorem Rx.forget_lcd : rx.forget.lcd = none := rfl
@[simp] theorem Rx.forget_refused : rx.forget.refused = rx.refused := rfl
@[simp] theorem Rx.forget_buf : rx.forget.buf = rx.buf := rfl
@[simp] theorem Rx.forget_prevCsN : rx.forget.prevCsN = rx.prevCsN := rfl
@[simp] theorem Rx.forget_prevSclk : rx.forget.prevSclk = rx.prevSclk := rfl

@[simp] theorem Rx.losePower_mem : rx.losePower.mem = [] := rfl
@[simp] theorem Rx.losePower_refused : rx.losePower.refused = rx.refused := rfl

variable (a : Nat) (nibs : List Nibble)

@[simp] theorem Rx.memWrite_mem : (rx.memWrite a nibs).mem = rx.mem.writeFrom a (nibs.map rx.stored) := rfl
@[simp] theorem Rx.memWrite_sys : (rx.memWrite a nibs).sys = rx.sys := rfl
@[simp] theorem Rx.memWrite_lcd : (rx.memWrite a nibs).lcd = rx.lcd := rfl
@[simp] theorem Rx.memWrite_refused : (rx.memWrite a nibs).refused = rx.refused := rfl
@[simp] theorem Rx.memWrite_buf : (rx.memWrite a nibs).buf = rx.buf := rfl
@[simp] theorem Rx.memWrite_prevCsN : (rx.memWrite a nibs).prevCsN = rx.prevCsN := rfl
@[simp] theorem Rx.memWrite_prevSclk : (rx.memWrite a nibs).prevSclk = rx.prevSclk := rfl

end

end Sys2Proof.Machine
end

