-- ==== Sys2Proof/Laws/Ops.lean ====
section
/-! SUPPORT. What each shared operation can do, said once: accepting a request, recording an error, a frame at the
receiver, and what the decoder makes of a frame's bits. -/

namespace Sys2Proof.Machine

/-! ### Requests -/

/-- Everything `RecordError` can do: nothing, or set the flag and the cause (R222). -/
theorem State.recordError_cases (s : State) (c : Cause) :
    (s.err = true ∧ s.recordError c = s) ∨
      (s.err = false ∧ s.recordError c = { s with err := true, cause := c }) := by
  unfold State.recordError
  cases h : s.err <;> simp

/-- Everything the accepting edge can do (R113). -/
theorem State.accept_cases (s : State) (e : Expansion) :
    (∃ c, e = .err c ∧ s.accept e = s.recordError c) ∨
      (e = .ok [] ∧ s.accept e = s) ∨ ∃ f fs, e = .ok (f :: fs) ∧ s.accept e = s.start f fs := by
  rcases e with (_ | ⟨f, fs⟩) | c
  · exact .inr (.inl ⟨rfl, rfl⟩)
  · exact .inr (.inr ⟨f, fs, rfl, rfl⟩)
  · exact .inl ⟨c, rfl, rfl⟩

@[simp] theorem State.accept_cfg (s : State) (e : Expansion) : (s.accept e).cfg = s.cfg := by
  rcases s.accept_cases e with ⟨c, rfl, h⟩ | ⟨rfl, h⟩ | ⟨f, fs, rfl, h⟩ <;> rw [h]
  · rcases s.recordError_cases c with ⟨-, h⟩ | ⟨-, h⟩ <;> rw [h]
  · rfl

@[simp] theorem State.accept_rx (s : State) (e : Expansion) : (s.accept e).rx = s.rx := by
  rcases s.accept_cases e with ⟨c, rfl, h⟩ | ⟨rfl, h⟩ | ⟨f, fs, rfl, h⟩ <;> rw [h]
  · rcases s.recordError_cases c with ⟨-, h⟩ | ⟨-, h⟩ <;> rw [h]
  · rfl

@[simp] theorem State.accept_inputs (s : State) (e : Expansion) : (s.accept e).inputs = s.inputs := by
  rcases s.accept_cases e with ⟨c, rfl, h⟩ | ⟨rfl, h⟩ | ⟨f, fs, rfl, h⟩ <;> rw [h]
  · rcases s.recordError_cases c with ⟨-, h⟩ | ⟨-, h⟩ <;> rw [h]
  · rfl

/-- The state after a request with expansion `e` was on the port at this edge. -/
def State.offered (s : State) (e : Expansion) : State := if s.reqReady then s.accept e else s

theorem offer_eq (e : Expansion) (s : State) : offer e s = .next (s.offered e) := by
  unfold offer State.offered
  split <;> rfl

/-- Every request is its expansion, offered to the port. -/
theorem exec_request {c : Config} {i : Instr} {e : Expansion} (s : State) (hc : s.cfg = c) (h : expand c i = some e) :
    exec i s = .next (s.offered e) := by
  subst hc
  cases i <;> simp only [expand, Option.some.injEq, reduceCtorEq] at h <;> subst h <;> exact offer_eq _ s

@[simp] theorem wireFrame_instrOfFrame (f : Frame) : wireFrame (instrOfFrame f) = some f := by cases f <;> rfl

/-- Every wire instruction is its frame, delivered to the receiver. -/
theorem exec_wire {i : Instr} {f : Frame} (s : State) (h : wireFrame i = some f) :
    exec i s = .next (s.setRx (s.rx.apply f)) := by
  cases i <;> simp only [wireFrame, Option.some.injEq, reduceCtorEq] at h <;> subst h <;> rfl

/-- An instruction is a request or a wire frame. -/
theorem expand_or_wireFrame (c : Config) (i : Instr) :
    (∃ e, expand c i = some e ∧ wireFrame i = none) ∨ ∃ f, wireFrame i = some f ∧ expand c i = none := by
  cases i <;> simp [expand, wireFrame]

/-- A request word decodes to a request. -/
theorem expand_decodeRequest (c : Config) (w : Word) : ∃ e, expand c (decodeRequest w) = some e := by
  unfold decodeRequest decodeDataRequest
  repeat' split
  all_goals exact ⟨_, rfl⟩

/-! ### The receiver -/

/-- A frame changes only the receiver's memory and flags. -/
@[simp] theorem Rx.apply_buf (rx : Rx) (f : Frame) : (rx.apply f).buf = rx.buf := by
  cases f <;> simp only [Rx.apply, Rx.command]
  all_goals repeat' split
  all_goals rfl

@[simp] theorem Rx.apply_prevCsN (rx : Rx) (f : Frame) : (rx.apply f).prevCsN = rx.prevCsN := by
  cases f <;> simp only [Rx.apply, Rx.command]
  all_goals repeat' split
  all_goals rfl

@[simp] theorem Rx.apply_prevSclk (rx : Rx) (f : Frame) : (rx.apply f).prevSclk = rx.prevSclk := by
  cases f <;> simp only [Rx.apply, Rx.command]
  all_goals repeat' split
  all_goals rfl

/-- A frame keeps the receiver's memory in canonical form. -/
theorem Rx.wf_apply {rx : Rx} (h : rx.mem.wf) (f : Frame) : (rx.apply f).mem.wf := by
  cases f <;> simp only [Rx.apply, Rx.command]
  · repeat' split
    all_goals first | exact h | exact Memory.wf_nil
  · split
    · rename_i hr
      refine Memory.wf_writeFrom h ?_
      simpa [Frame.inRange] using hr
    · exact Memory.wf_nil
  · split
    · rename_i hr
      refine Memory.wf_writeFrom h ?_
      simpa [Frame.inRange, nibbles] using hr
    · exact Memory.wf_nil

/-! ### The decoder on the wire -/

/-- The bits of a frame inside the memory decode to that frame. -/
theorem decodeFrame_frameBits {f : Frame} (h : f.inRange = true) : decodeFrame (frameBits f) = .ok (instrOfFrame f) := by
  cases f with
  | cmd c =>
    have hl : (bitsMSB c ++ [padBit]).take 8 = bitsMSB c := by
      rw [List.take_append_of_le_length (by simp)]; exact List.take_of_length_le (by simp)
    show decodeCommandPayload (bitsMSB c ++ [padBit]) = _
    simp only [decodeCommandPayload, List.length_append, bitsMSB_length, hl, readMSB_bitsMSB]
    rfl
  | data4 a v =>
    have ht : (bitsMSB a ++ bitsMSB v).take 6 = bitsMSB a := by
      rw [List.take_append_of_le_length (by simp)]; exact List.take_of_length_le (by simp)
    have hd : (bitsMSB a ++ bitsMSB v).drop 6 = bitsMSB v := by
      rw [List.drop_append_of_le_length (by simp)]; simp
    have ha : a.toNat + 1 ≤ 64 := by simpa [Frame.inRange] using h
    show decodeDataPayload (bitsMSB a ++ bitsMSB v) = _
    simp only [decodeDataPayload, List.length_append, bitsMSB_length, ht, hd, readMSB_bitsMSB]
    simp [ha, instrOfFrame]
  | data16 a v =>
    have ht : (bitsMSB a ++ bitsMSB v).take 6 = bitsMSB a := by
      rw [List.take_append_of_le_length (by simp)]; exact List.take_of_length_le (by simp)
    have hd : (bitsMSB a ++ bitsMSB v).drop 6 = bitsMSB v := by
      rw [List.drop_append_of_le_length (by simp)]; simp
    have ha : a.toNat + 4 ≤ 64 := by simpa [Frame.inRange] using h
    show decodeDataPayload (bitsMSB a ++ bitsMSB v) = _
    simp only [decodeDataPayload, List.length_append, bitsMSB_length, ht, hd, readMSB_bitsMSB]
    simp [ha, instrOfFrame]

/-- What the wire decoder accepts is a frame inside the memory. -/
theorem decodeFrame_ok {bits : List Bool} {i : Instr} (h : decodeFrame bits = .ok i) :
    ∃ f : Frame, f.inRange = true ∧ i = instrOfFrame f := by
  unfold decodeFrame at h
  split at h
  · unfold decodeCommandPayload at h
    split at h <;> simp only [Except.ok.injEq, reduceCtorEq] at h
    exact ⟨.cmd _, rfl, h.symm⟩
  · simp only [decodeDataPayload] at h
    split at h
    · split at h <;> simp only [Except.ok.injEq, reduceCtorEq] at h
      rename_i ha
      exact ⟨.data4 _ _, by simpa [Frame.inRange] using ha, h.symm⟩
    · split at h
      · split at h <;> simp only [Except.ok.injEq, reduceCtorEq] at h
        rename_i ha
        exact ⟨.data16 _ _, by simpa [Frame.inRange] using ha, h.symm⟩
      · simp at h
  all_goals simp at h

end Sys2Proof.Machine
end

