-- ==== Sys2Proof/Laws/Step.lean ====
section
/-! SUPPORT. The step as one total function: the block's next state, what the receiver makes of the new lines, and the
end of the cycle. Proofs about `step` start from `step_eq`. -/

namespace Sys2Proof.Machine

/-- The expansion of a request word (R82). -/
def wordExpansion (c : Config) (w : Word) : Expansion := (expand c (decodeRequest w)).getD (.ok [])

/-- The block after its edge (R112). -/
def blockNext (s : State) : State :=
  if s.input.rst then s.resetBlock
  else
    match s.phase with
    | .idle => if s.input.reqValid then s.accept (wordExpansion s.cfg s.input.reqWord) else s
    | .setup => setupEdge s
    | .low => lowEdge s
    | .high => highEdge s
    | .gap => gapEdge s

/-- What the receiver makes of the bits of a whole frame (R63 to R65). -/
def Rx.interpreted (rx : Rx) (bits : List Bool) : Rx :=
  match decodeFrame bits with
  | .ok i =>
    match wireFrame i with
    | some f => rx.apply f
    | none => rx
  | .error _ => rx.forget

/-- The receiver after it looked at the lines (R62, R66). -/
def Rx.received (rx : Rx) (cut csN sclk sdata : Bool) : Rx :=
  let r := rx.sample csN sclk sdata
  if cut then r.forget else if rx.frameEnds csN then r.interpreted r.buf else r

/-- The machine after one cycle. -/
def stepNext (s : State) : State :=
  let t := blockNext s
  endCycle (t.setRx (t.rx.received s.cutsFrame t.csN t.sclk t.sdata))

theorem idleEdge_eq {s : State} (hp : s.phase = .idle) (hr : s.input.rst = false) :
    idleEdge s = .next (if s.input.reqValid then s.accept (wordExpansion s.cfg s.input.reqWord) else s) := by
  unfold idleEdge
  split
  · obtain ⟨e, he⟩ := expand_decodeRequest s.cfg s.input.reqWord
    rw [exec_request s rfl he]
    simp [State.offered, State.reqReady, hp, hr, wordExpansion, he]
  · rfl

theorem blockEdge_eq (s : State) : blockEdge s = .next (blockNext s) := by
  unfold blockEdge blockNext
  split
  · rfl
  · rename_i hr
    cases hp : s.phase <;> simp only
    exact idleEdge_eq hp (by simpa using hr)

theorem interpret_eq (bits : List Bool) (s : State) : interpret bits s = .next (s.setRx (s.rx.interpreted bits)) := by
  unfold interpret Rx.interpreted
  cases h : decodeFrame bits with
  | error e => simp [decode, h]
  | ok i =>
    obtain ⟨f, -, rfl⟩ := decodeFrame_ok h
    simp [decode, h, exec_wire s (wireFrame_instrOfFrame f)]

theorem receive_eq (cut : Bool) (s : State) :
    receive cut s = .next (s.setRx (s.rx.received cut s.csN s.sclk s.sdata)) := by
  unfold receive Rx.received
  simp only
  split
  · rfl
  · split
    · rw [interpret_eq]; rfl
    · rfl

/-- A step always goes on, and this is where. -/
theorem step_eq (s : State) : step s = .next (stepNext s) := by
  unfold step cycle
  rw [blockEdge_eq]
  simp only [Result.andThen, receive_eq]
  rfl

@[simp] theorem blockNext_rx (s : State) : (blockNext s).rx = s.rx := by
  unfold blockNext
  repeat' split
  all_goals try simp only [State.accept_rx, State.resetBlock_rx]
  · unfold setupEdge; split <;> rfl
  · unfold lowEdge; simp only; split <;> rfl
  · unfold highEdge; simp only; repeat' split
    all_goals rfl
  · unfold gapEdge; repeat' split
    all_goals rfl

@[simp] theorem blockNext_inputs (s : State) : (blockNext s).inputs = s.inputs := by
  unfold blockNext
  repeat' split
  all_goals try simp only [State.accept_inputs, State.resetBlock_inputs]
  · unfold setupEdge; split <;> rfl
  · unfold lowEdge; simp only; split <;> rfl
  · unfold highEdge; simp only; repeat' split
    all_goals rfl
  · unfold gapEdge; repeat' split
    all_goals rfl

@[simp] theorem blockNext_cfg (s : State) : (blockNext s).cfg = s.cfg := by
  unfold blockNext
  repeat' split
  all_goals try simp only [State.accept_cfg, State.resetBlock_cfg]
  · unfold setupEdge; split <;> rfl
  · unfold lowEdge; simp only; split <;> rfl
  · unfold highEdge; simp only; repeat' split
    all_goals rfl
  · unfold gapEdge; repeat' split
    all_goals rfl

/-- The block's fields after a cycle are those after its edge. -/
theorem stepNext_block (s : State) :
    stepNext s = { blockNext s with rx := (stepNext s).rx, inputs := s.inputs.tail } := by
  unfold stepNext
  simp only [endCycle, State.setRx, blockNext_inputs]

/-- The receiver after a cycle in which the peripheral keeps its power. -/
theorem stepNext_rx {s : State} (hp : s.input.powerLoss = false) :
    (stepNext s).rx =
      (s.rx.received s.cutsFrame (blockNext s).csN (blockNext s).sclk (blockNext s).sdata).remember (blockNext s).csN
        (blockNext s).sclk := by
  simp only [stepNext, endCycle, State.setRx, State.input, blockNext_inputs, blockNext_rx] at *
  rw [hp]; rfl

end Sys2Proof.Machine
end

