-- ==== Sys2Proof/Laws/Frames.lean ====
section
/-! SUPPORT. A configuration's bounds, the frames of each expansion, the shift register of each frame, and what one
frame leaves at every location. -/

namespace Sys2Proof.Machine

/-! ### The bounds of R7 -/

theorem clusterSize_cases (c : Config) :
    c.clusterSize = 1 ∨ c.clusterSize = 2 ∨ c.clusterSize = 3 ∨ c.clusterSize = 4 := c.admitted.2.2.2.2.2.1
theorem clusterCount_le (c : Config) : c.clusterCount ≤ 11 := c.admitted.2.2.2.2.2.2.1
theorem pointCount_le (c : Config) : c.pointCount ≤ 16 := c.admitted.2.2.2.2.2.2.2.1
theorem two_le_np (c : Config) : 2 ≤ c.np := c.admitted.1
theorem one_le_ns (c : Config) : 1 ≤ c.ns := c.admitted.2.2.2.1
theorem one_le_ng (c : Config) : 1 ≤ c.ng := c.admitted.2.2.2.2.1

theorem cluster_lt {c : Config} {i : Nat} (h : i < c.pointCount) : i / c.clusterSize < c.clusterCount := by
  apply Nat.div_lt_of_lt_mul; rw [Nat.mul_comm]; exact h

theorem place_lt_four (c : Config) (i : Nat) : i % c.clusterSize < 4 := by
  have := clusterSize_cases c
  exact lt_of_lt_of_le (Nat.mod_lt _ (by omega)) (by omega)

/-! ### The memory map (R160 to R166) -/

theorem cellAddr?_of_lt {p : Nat} (h : p < 10) : cellAddr? p = some (BitVec.ofNat 6 (0x24 - 4 * p)) := by
  interval_cases p <;> rfl

theorem cellAddr?_of_le {p : Nat} (h : 10 ≤ p) : cellAddr? p = none := by
  unfold cellAddr? cellAddrTable; rw [List.getElem?_eq_none]; simpa using h

theorem clusterAddrOf_toNat {k : Nat} (h : k ≤ 11) : (clusterAddrOf k).toNat = 0x29 + 2 * k := by
  simp only [clusterAddrOf, clusterBase, BitVec.toNat_ofNat]; omega

theorem clusterAddr_eq (c : Config) (i : Nat) : clusterAddr c i = BitVec.ofNat 6 (0x29 + 2 * (i / c.clusterSize)) := by
  simp only [clusterAddr, clusterBase]; congr 1; ring

theorem rawBit_eq (c : Config) (i : Nat) : rawBit c i = 1#4 <<< (i % c.clusterSize) := by
  simp [rawBit]

theorem packBit_rawBit (c : Config) (i : Nat) :
    packBit (rawBit c i) = [4#4, 2#4, 1#4, 13#4].getD (i % c.clusterSize) 0#4 := by
  rw [rawBit_eq]
  have := place_lt_four c i
  generalize i % c.clusterSize = x at *
  interval_cases x <;> decide

/-! ### Expansions -/

theorem expandPoint_ok {c : Config} {i : BitVec 4} (on : Bool) (h : i.toNat < c.pointCount) :
    expandPoint c i on = .ok [.data4 (BitVec.ofNat 6 (0x29 + 2 * (i.toNat / c.clusterSize)))
      (if on then [4#4, 2#4, 1#4, 13#4].getD (i.toNat % c.clusterSize) 0#4 else 0#4)] := by
  have : 0 < c.clusterCount := lt_of_le_of_lt (Nat.zero_le _) (cluster_lt h)
  rw [expandPoint, if_neg (by omega), if_neg (by omega)]
  simp only [pointMap, packBit_rawBit, clusterAddr_eq]

theorem expandSetpt_ok {c : Config} {i : BitVec 4} (h : i.toNat < c.pointCount) :
    expandSetpt c i = .ok (clearFrames c ++ [.data4 (BitVec.ofNat 6 (0x29 + 2 * (i.toNat / c.clusterSize)))
      ([4#4, 2#4, 1#4, 13#4].getD (i.toNat % c.clusterSize) 0#4)]) := by
  have : 0 < c.clusterCount := lt_of_le_of_lt (Nat.zero_le _) (cluster_lt h)
  rw [expandSetpt, if_neg (by omega), if_neg (by omega), expandPoint_ok true h]; rfl

theorem clearFrames_eq {c : Config} (h : 0 < c.clusterCount) :
    clearFrames c = .data4 0x29#6 0#4 ::
      ((List.range (c.clusterCount - 1)).map fun k => .data4 (BitVec.ofNat 6 (0x2B + 2 * k)) 0#4) := by
  obtain ⟨n, hn⟩ : ∃ n, c.clusterCount = n + 1 := ⟨c.clusterCount - 1, by omega⟩
  rw [clearFrames, hn, List.range_succ_eq_map, List.map_cons, List.map_map]
  congr 1
  apply List.map_congr_left
  intro k _
  simp only [Function.comp, clusterAddrOf, clusterBase]
  congr 2; omega

theorem offer_frames {s : State} (h : s.reqReady = true) (f : Frame) (fs : List Frame) :
    offer (.ok (f :: fs)) s = .next (s.start f fs) := by
  rw [offer_eq, State.offered, if_pos h]; rfl

theorem offer_empty (s : State) : offer (.ok []) s = .next s := by
  rw [offer_eq, State.offered]; split <;> rfl

theorem offer_error {s : State} (h : s.reqReady = true) (c : Cause) :
    offer (.err c) s = .next (if s.err then s else s.failed c) := by
  rw [offer_eq, State.offered, if_pos h]; rfl

/-! ### Frames in the shift register (R119) -/

theorem leftAlign_cmd (c : Code) : leftAlign (frameBits (.cmd c)) = cmdBits c := by
  apply BitVec.eq_of_getMsbD_eq
  intro i hi
  rw [leftAlign_getMsbD _ (by simp), frameBits_cmd]
  simp only [cmdBits]
  interval_cases i <;> simp [BitVec.getMsbD]

theorem leftAlign_data4 (a : Addr) (v : Nibble) : leftAlign (frameBits (.data4 a v)) = data4Bits a v := by
  apply BitVec.eq_of_getMsbD_eq
  intro i hi
  rw [leftAlign_getMsbD _ (by simp), frameBits_data4]
  simp only [data4Bits]
  interval_cases i <;> simp [BitVec.getMsbD]

theorem leftAlign_data16 (a : Addr) (v : Pattern) : leftAlign (frameBits (.data16 a v)) = data16Bits a v := by
  apply BitVec.eq_of_getMsbD_eq
  intro i hi
  rw [leftAlign_getMsbD _ (by simp), frameBits_data16]
  simp only [data16Bits]
  interval_cases i <;> simp [BitVec.getMsbD]

theorem State.start_cmd (s : State) (c : Code) (fs : List Frame) :
    s.start (.cmd c) fs = s.sending 12 (cmdBits c) fs := by
  simp only [State.start, State.load, State.sending, leftAlign_cmd]; rfl

theorem State.start_data4 (s : State) (a : Addr) (v : Nibble) (fs : List Frame) :
    s.start (.data4 a v) fs = s.sending 13 (data4Bits a v) fs := by
  simp only [State.start, State.load, State.sending, leftAlign_data4]; rfl

theorem State.start_data16 (s : State) (a : Addr) (v : Pattern) (fs : List Frame) :
    s.start (.data16 a v) fs = s.sending 25 (data16Bits a v) fs := by
  simp only [State.start, State.load, State.sending, leftAlign_data16]; rfl

/-! ### One frame at the receiver (R64) -/

theorem nibbles_getElem? (v : Pattern) {j : Nat} (h : j < 4) :
    (nibbles v)[j]? = some (v.extractLsb' (4 * (3 - j)) 4) := by
  interval_cases j <;> rfl

/-- Every location after a 4-bit frame. -/
theorem Rx.read_apply_data4 {rx : Rx} (hm : rx.mem.wf) (a : Addr) (v : Nibble) (x : Nat) :
    (rx.apply (.data4 a v)).mem.read x = if x = a.toNat then rx.stored v else rx.mem.read x := by
  have ha := a.isLt
  simp only [Rx.apply, Frame.inRange, show a.toNat + 1 ≤ 64 by omega, decide_true, if_true, Rx.memWrite_mem, List.map]
  split
  · have := Memory.read_writeFrom_inside hm (a := a.toNat) (j := 0) (vs := [rx.stored v]) (by simp) (by simp; omega)
    subst_vars; simpa using this
  · exact Memory.read_writeFrom_outside _ (by simp; omega)

/-- Every location after a 16-bit frame inside the memory. -/
theorem Rx.read_apply_data16 {rx : Rx} (hm : rx.mem.wf) {a : Addr} (ha : a.toNat + 4 ≤ 64) (v : Pattern) (x : Nat) :
    (rx.apply (.data16 a v)).mem.read x =
      if a.toNat ≤ x ∧ x ≤ a.toNat + 3 then rx.stored (v.extractLsb' (4 * (3 - (x - a.toNat))) 4)
      else rx.mem.read x := by
  simp only [Rx.apply, Frame.inRange, ha, decide_true, if_true, Rx.memWrite_mem]
  split
  · have := Memory.read_writeFrom_inside hm (a := a.toNat) (j := x - a.toNat) (vs := (nibbles v).map rx.stored)
      (by simp [nibbles]; omega) (by simp [nibbles]; omega)
    rw [show a.toNat + (x - a.toNat) = x by omega] at this
    rw [this, List.getElem_map]
    congr 1
    have h2 := nibbles_getElem? v (j := x - a.toNat) (by omega)
    rw [List.getElem?_eq_some_iff] at h2
    exact h2.2
  · exact Memory.read_writeFrom_outside _ (by simp [nibbles]; omega)

/-- A data frame changes no flag of the receiver. -/
theorem Rx.apply_data4_flags (rx : Rx) (a : Addr) (v : Nibble) :
    (rx.apply (.data4 a v)).sys = rx.sys ∧ (rx.apply (.data4 a v)).lcd = rx.lcd
      ∧ (rx.apply (.data4 a v)).refused = rx.refused := by
  have ha := a.isLt
  simp [Rx.apply, Frame.inRange, show a.toNat + 1 ≤ 64 by omega]

theorem Rx.apply_data16_flags (rx : Rx) {a : Addr} (ha : a.toNat + 4 ≤ 64) (v : Pattern) :
    (rx.apply (.data16 a v)).sys = rx.sys ∧ (rx.apply (.data16 a v)).lcd = rx.lcd
      ∧ (rx.apply (.data16 a v)).refused = rx.refused := by
  simp [Rx.apply, Frame.inRange, ha]

/-! ### Frames one after the other (R58) -/

@[simp] theorem Rx.applyAll_nil (rx : Rx) : rx.applyAll [] = rx := rfl

@[simp] theorem Rx.applyAll_cons (rx : Rx) (f : Frame) (fs : List Frame) :
    rx.applyAll (f :: fs) = (rx.apply f).applyAll fs := rfl

theorem Rx.applyAll_append (rx : Rx) (fs gs : List Frame) :
    rx.applyAll (fs ++ gs) = (rx.applyAll fs).applyAll gs := List.foldl_append

theorem Rx.wf_applyAll {rx : Rx} (h : rx.mem.wf) (fs : List Frame) : (rx.applyAll fs).mem.wf := by
  induction fs generalizing rx with
  | nil => exact h
  | cons f fs ih => exact ih (Rx.wf_apply h f)

/-- A data frame inside the memory changes the memory alone. -/
theorem Rx.apply_data (rx : Rx) {f : Frame} (hr : f.inRange = true) (hc : ∀ c, f ≠ .cmd c) :
    rx.apply f = { rx with mem := (rx.apply f).mem } := by
  cases f with
  | cmd c => exact absurd rfl (hc c)
  | data4 a v => simp [Rx.apply, hr, Rx.memWrite]
  | data16 a v => simp [Rx.apply, hr, Rx.memWrite]

/-- Data frames inside the memory change the memory alone. -/
theorem Rx.applyAll_data (rx : Rx) {fs : List Frame} (hr : ∀ f ∈ fs, f.inRange = true) (hc : ∀ f ∈ fs, ∀ c, f ≠ .cmd c) :
    rx.applyAll fs = { rx with mem := (rx.applyAll fs).mem } := by
  induction fs generalizing rx with
  | nil => rfl
  | cons f fs ih =>
    obtain ⟨m, hm⟩ : ∃ m, rx.apply f = { rx with mem := m } :=
      ⟨_, Rx.apply_data rx (hr f (by simp)) (hc f (by simp))⟩
    rw [Rx.applyAll_cons, hm]
    exact ih { rx with mem := m } (fun g hg => hr g (by simp [hg])) (fun g hg => hc g (by simp [hg]))

/-! ### Runs -/

theorem run_succ (M : Host.Core) {s t : M.State} (h : M.step s = .next t) (k : Nat) : M.run (k + 1) s = M.run k t := by
  simp only [Host.Core.run, h]

/-- A run of `k` steps always goes on, and this is where. -/
theorem core_run_eq (k : Nat) (s : State) : Sys2Proof.core.run k s = .next (stepNext^[k] s) := by
  induction k generalizing s with
  | zero => rfl
  | succ k ih => exact (run_succ Sys2Proof.core (step_eq s) k).trans (ih (stepNext s))

end Sys2Proof.Machine
end

