-- ==== Sys2Proof/Laws/PerInstr.lean ====
section
/-! SUPPORT. One family of per-instruction facts: what the encoder gives for an instruction matches that instruction's
row of spec/opcode_table.json (its `match` under its `mask`). -/

namespace Sys2Proof.Laws.TableRow

/-- `match` and `mask` of the instruction's row. -/
def row : Instr → Word × Word
  | .cmd _ => (0x00000000#32, 0xE0000000#32)
  | .data4 _ _ => (0x20000000#32, 0xE0C00000#32)
  | .data16 _ _ => (0x20C00000#32, 0xE0C00000#32)
  | .dataw01 => (0x20400000#32, 0xE0C00000#32)
  | .dataw10 => (0x20800000#32, 0xE0C00000#32)
  | .cell _ _ => (0x40000000#32, 0xE0000000#32)
  | .point _ _ => (0x60000000#32, 0xE0000000#32)
  | .rstpts => (0x80000000#32, 0xE0000000#32)
  | .setpt _ => (0xA0000000#32, 0xE0000000#32)
  | .fill _ => (0xC0000000#32, 0xE0000000#32)
  | .reserved => (0xE0000000#32, 0xE0000000#32)
  | .sysdis => (0x00000000#32, 0xE00000FF#32)
  | .sysen => (0x00000001#32, 0xE00000FF#32)
  | .lcdoff => (0x00000002#32, 0xE00000FF#32)
  | .lcdon => (0x00000003#32, 0xE00000FF#32)
  | .clear => (0xC0000000#32, 0xE0000100#32)
  | .lamptest => (0xC0000100#32, 0xE0000100#32)
  | .draw _ _ => (0x40000000#32, 0xE0000000#32)
  | .frameCmd _ => (0x800#32, 0xE01#32)
  | .frameData4 _ _ => (0x1400#32, 0x1C00#32)
  | .frameData16 _ _ => (0x1400000#32, 0x1C00000#32)

/-- The number the opcode table gives a request word or a frame: wire bit 0 is a frame's most significant bit (R93). -/
def number : Fetched → Word
  | .request w => w
  | .wire bits => readMSB 32 bits

/-- The instruction's encoding matches its row. -/
def Statement (i : Instr) : Prop := number (encode i) &&& (row i).2 = (row i).1

theorem cmd (c : Code) : Statement (.cmd c) := by
  unfold Statement
  apply BitVec.eq_of_getLsbD_eq
  intro i hi
  simp only [encode, encodeCmd, field, number, row]
  interval_cases i <;> simp

theorem data4 (a : Addr) (v : Nibble) : Statement (.data4 a v) := by
  unfold Statement
  apply BitVec.eq_of_getLsbD_eq
  intro i hi
  simp only [encode, encodeData, field, number, row]
  interval_cases i <;> simp

theorem data16 (a : Addr) (v : Pattern) : Statement (.data16 a v) := by
  unfold Statement
  apply BitVec.eq_of_getLsbD_eq
  intro i hi
  simp only [encode, encodeData, field, number, row]
  interval_cases i <;> simp

theorem dataw01 : Statement .dataw01 := by unfold Statement; decide
theorem dataw10 : Statement .dataw10 := by unfold Statement; decide

theorem cell (p : BitVec 4) (v : Pattern) : Statement (.cell p v) := by
  unfold Statement
  apply BitVec.eq_of_getLsbD_eq
  intro i hi
  simp only [encode, encodeCell, field, number, row]
  interval_cases i <;> simp

theorem point (i : BitVec 4) (on : Bool) : Statement (.point i on) := by unfold Statement; revert i on; decide

theorem rstpts : Statement .rstpts := by unfold Statement; decide

theorem setpt (i : BitVec 4) : Statement (.setpt i) := by unfold Statement; revert i; decide

theorem fill (on : Bool) : Statement (.fill on) := by unfold Statement; revert on; decide

theorem reserved : Statement .reserved := by unfold Statement; decide
theorem sysdis : Statement .sysdis := by unfold Statement; decide
theorem sysen : Statement .sysen := by unfold Statement; decide
theorem lcdoff : Statement .lcdoff := by unfold Statement; decide
theorem lcdon : Statement .lcdon := by unfold Statement; decide
theorem clear : Statement .clear := by unfold Statement; decide
theorem lamptest : Statement .lamptest := by unfold Statement; decide

theorem draw (p : BitVec 4) (v : Pattern) : Statement (.draw p v) := cell p v

/-- The bits of a frame's number. -/
theorem number_getLsbD (f : Frame) (i : Nat) : (number (.wire (frameBits f))).getLsbD i =
    (decide (i < (frameBits f).length) && (frameBits f).getD ((frameBits f).length - 1 - i) false) :=
  readMSB_getLsbD _ (by cases f <;> simp) i

theorem frameCmd (c : Code) : Statement (.frameCmd c) := by
  unfold Statement
  apply BitVec.eq_of_getLsbD_eq
  intro i hi
  rw [BitVec.getLsbD_and, encode, number_getLsbD, frameBits_cmd]
  simp only [row]
  interval_cases i <;> simp

theorem frameData4 (a : Addr) (v : Nibble) : Statement (.frameData4 a v) := by
  unfold Statement
  apply BitVec.eq_of_getLsbD_eq
  intro i hi
  rw [BitVec.getLsbD_and, encode, number_getLsbD, frameBits_data4]
  simp only [row]
  interval_cases i <;> simp

theorem frameData16 (a : Addr) (v : Pattern) : Statement (.frameData16 a v) := by
  unfold Statement
  apply BitVec.eq_of_getLsbD_eq
  intro i hi
  rw [BitVec.getLsbD_and, encode, number_getLsbD, frameBits_data16]
  simp only [row]
  interval_cases i <;> simp

end Sys2Proof.Laws.TableRow
end

