-- ==== Sys2Proof/Tests/Slice0.lean ====
section
/-! SUPPORT. Small tests with expected results from 95_test_vectors.md and the rules, and for every statement that has
hypotheses a concrete case that meets them all. -/

namespace Sys2Proof.Tests

open Sys2Proof Sys2Proof.Machine

/-! ### Helpers -/

/-- The state an outcome goes on to; the reset state for a stop, which no test expects. -/
def after (r : Result) : State :=
  match r with
  | .next s => s
  | .fault _ => State.reset
  | .refused _ => State.reset

/-- The machine ready for a request: the reset state with the receiver's oscillator on. -/
def ready : State := { State.reset with rx := { Rx.powerOn with sys := some true } }

/-- The default configuration without indicators, and with four indicators in each of three clusters. -/
def noPoints : Config := ⟨Params.mk 3 0 2 2 2 1000000 2000, by decide⟩
def fourEach : Config := ⟨Params.mk 4 3 2 2 2 1000000 2000, by decide⟩

/-- A frame of `CMD 0x01` just started, with one more frame to follow. -/
def sending : State := ready.start (.cmd 0x01#8) [.cmd 0x03#8]

/-- The first frame a started request sends, as the number of 95_test_vectors.md: the top `n` bits of the register. -/
def firstFrame (r : Result) : Nat × Nat :=
  ((after r).nbits, (after r).shreg.toNat / 2 ^ (25 - (after r).nbits))

/-- The first location from `a` on, four of them, after a frame instruction. -/
def four (r : Result) (a : Nat) : List (Option Nibble) :=
  [(after r).rx.mem.read a, (after r).rx.mem.read (a + 1), (after r).rx.mem.read (a + 2), (after r).rx.mem.read (a + 3)]

/-! ### Parameters: `NS` and `NG` have the default `NP` (R6) -/

theorem test_default_ns_ng : ({ np := 4 } : Params).ns = 4 ∧ ({ np := 4 } : Params).ng = 4
    ∧ Config.default.ns = 2 ∧ Config.default.ng = 2 := by decide

/-! ### WellFormed: the one check, and what it refuses -/

theorem test_wellFormed_refuses_frame_past_end : (Instr.frameData16 0x3D#6 0xFFFF#16).wellFormed = false := by decide
theorem test_wellFormed_takes_last_frame : (Instr.frameData16 0x3C#6 0xFFFF#16).wellFormed = true := by decide
theorem test_wellFormed_takes_out_of_range_operands :
    (Instr.cell 12#4 0#16).wellFormed = true ∧ (Instr.data16 0x3D#6 0#16).wellFormed = true := by decide

/-! ### Decoding: words of 95_test_vectors.md section 2.1 and of the table of R91, R92 -/

theorem test_decode_cmd : decodeRequest 0b000_000000000000000000000_00000001#32 = .cmd 0x01#8 := by decide
theorem test_decode_cmd_unused : decodeRequest 0x1FFFFF03#32 = .cmd 0x03#8 := by decide
theorem test_decode_data4 :
    decodeRequest 0b001_00000_00_101001_000000000000_0100#32 = .data4 0x29#6 0x4#4 := by decide
theorem test_decode_data4_unused : decodeRequest 0x2029ABC5#32 = .data4 0x29#6 0x5#4 := by decide
theorem test_decode_data16 :
    decodeRequest 0b001_00000_11_100010_1010101111001101#32 = .data16 0x22#6 0xABCD#16 := by decide
theorem test_decode_dataw01 : decodeRequest 0x205000AB#32 = .dataw01 := by decide
theorem test_decode_dataw10 : decodeRequest 0x20800000#32 = .dataw10 := by decide
theorem test_decode_cell :
    decodeRequest 0b010_000000000_1001_1111111111111111#32 = .cell 9#4 0xFFFF#16 := by decide
theorem test_decode_point_on : decodeRequest 0b011_00000000000000000000_1_0000_0100#32 = .point 4#4 true := by decide
theorem test_decode_point_off : decodeRequest 0x60000004#32 = .point 4#4 false := by decide
theorem test_decode_rstpts : decodeRequest 0x9FFFFFFF#32 = .rstpts := by decide
theorem test_decode_setpt : decodeRequest 0xA0000007#32 = .setpt 7#4 := by decide
theorem test_decode_fill : decodeRequest 0xC0000100#32 = .fill true ∧ decodeRequest 0xDFFFFEFF#32 = .fill false := by
  decide
theorem test_decode_reserved : decodeRequest 0xE0000000#32 = .reserved ∧ decodeRequest 0xFFFFFFFF#32 = .reserved := by
  decide
/-- The words of the pseudo-instructions (R92) decode to the core requests. -/
theorem test_decode_pseudo_words :
    decodeRequest 0x00000000#32 = Instr.core .sysdis ∧ decodeRequest 0x00000001#32 = Instr.core .sysen
    ∧ decodeRequest 0x00000002#32 = Instr.core .lcdoff ∧ decodeRequest 0x00000003#32 = Instr.core .lcdon
    ∧ decodeRequest 0xC0000000#32 = Instr.core .clear ∧ decodeRequest 0xC0000100#32 = Instr.core .lamptest
    ∧ decodeRequest 0x40001234#32 = Instr.core (.draw 0#4 0x1234#16) := by decide
/-- V-F7. -/
theorem test_decode_frameCmd :
    decode (.wire [true, false, false, true, false, true, false, true, false, true, false, false]) =
      .ok (.frameCmd 0xAA#8) := by decide
/-- V-F12: `101 101011 0010`. -/
theorem test_decode_frameData4 :
    decode (.wire [true, false, true, true, false, true, false, true, true, false, false, true, false]) =
      .ok (.frameData4 0x2B#6 0x2#4) := by decide
/-- V-F22: `101 100000 1000000000000001`. -/
theorem test_decode_frameData16 :
    decode (.wire ([true, false, true, true, false, false, false, false, false] ++ [true, false, false, false, false,
      false, false, false, false, false, false, false, false, false, false, true])) =
      .ok (.frameData16 0x20#6 0x8001#16) := by decide
/-- R65: wrong length, unknown prefix, no bits, past the end. -/
theorem test_decode_malformed :
    decode (.wire []) = .error .noPrefix ∧ decode (.wire [true, true, false, true]) = .error .unknownPrefix
    ∧ decode (.wire [true, false, true, true, false]) = .error .wrongLength
    ∧ decode (.wire (bitsMSB 0x17DFFFF#25)) = .error .passesEnd := by decide

/-! ### Encoding: the word column of R91 and R92, and frames of section 2.2 -/

theorem test_encode_words :
    encode (.data4 0x29#6 0x4#4) = .request 0x20290004#32 ∧ encode (.data16 0x24#6 0xFFFF#16) = .request 0x20E4FFFF#32
    ∧ encode (.cell 9#4 0#16) = .request 0x40090000#32 ∧ encode (.point 8#4 true) = .request 0x60000108#32
    ∧ encode (.setpt 9#4) = .request 0xA0000009#32 ∧ encode .rstpts = .request 0x80000000#32 := by decide
theorem test_encode_frames :
    encode (.frameCmd 0xFF#8) = .wire (bitsMSB 0x9FE#12) ∧ encode (.frameData4 0x3F#6 0xF#4) = .wire (bitsMSB 0x17FF#13)
    ∧ encode (.frameData16 0x3C#6 0xA5C3#16) = .wire (bitsMSB 0x17CA5C3#25) := by decide

/-! ### The opcode table's numbering and the placing of a word -/

theorem test_table_requests :
    decodeTableWord 32 0x20290004 = some (.data4 0x29#6 0x4#4) ∧ decodeTableWord 32 0xE0000000 = some .reserved
    ∧ decodeTableWord 32 0x00000000 = some (.cmd 0#8) := by decide
theorem test_table_frames :
    decodeTableWord 16 0x954 = some (.frameCmd 0xAA#8) ∧ decodeTableWord 16 0x1692 = some (.frameData4 0x29#6 0x2#4)
    ∧ decodeTableWord 32 0x164FFFF = some (.frameData16 0x24#6 0xFFFF#16)
    ∧ decodeTableWord 32 0x17DFFFF = none := by decide
/-- The very next step starts the placed request's frame. -/
theorem test_place_request : firstFrame (step (State.reset.withFetchWord 32 0x60000104)) = (13, 0x16B2) := by decide
/-- The very next step lets the receiver interpret the placed frame, and the block ends it. -/
theorem test_place_frame :
    (after (step (State.reset.withFetchWord 16 0x802))).rx.sys = some true
    ∧ (after (step (State.reset.withFetchWord 16 0x802))).phase = .gap := by decide
theorem test_place_frame_data :
    four (step (ready.withFetchWord 32 0x1641234)) 0x24 = [some 1#4, some 2#4, some 3#4, some 4#4] := by decide

/-! ### The assembler (R91, R92) -/

theorem test_assemble_point_default :
    assemble ['P', 'O', 'I', 'N', 'T', ' ', '4'] = some 0x60000104#32 := by decide
theorem test_assemble_data16 :
    assemble ['D', 'A', 'T', 'A', '1', '6', ' ', '0', 'x', '3', 'd', ',', ' ', '0', 'b', '1', '0'] =
      some 0x20FD0002#32 := by decide
theorem test_assemble_refuses_too_wide :
    assemble ['S', 'E', 'T', 'P', 'T', ' ', '1', '6'] = none ∧ assemble ['C', 'L', 'E', 'A', 'R'] = some 0xC0000000#32 := by
  decide

/-! ### One step of each instruction: the frames and errors of 95_test_vectors.md -/

theorem test_cmd : firstFrame (exec (.cmd 0x05#8) ready) = (12, 0x80A) := by decide
theorem test_data4 : firstFrame (exec (.data4 0x3F#6 0xF#4) ready) = (13, 0x17FF) := by decide
theorem test_data16 : firstFrame (exec (.data16 0x3C#6 0xA5C3#16) ready) = (25, 0x17CA5C3) := by decide
theorem test_data16_range : (after (exec (.data16 0x3D#6 0#16) ready)).status = 0x0E#8 := by decide
theorem test_dataw01 : (after (exec .dataw01 ready)).status = 0x0A#8 := by decide
theorem test_dataw10 : (after (exec .dataw10 ready)).status = 0x0A#8 := by decide
theorem test_cell : firstFrame (exec (.cell 0#4 0x1234#16) ready) = (25, 0x1641234) := by decide
theorem test_cell_bad : (after (exec (.cell 10#4 0#16) ready)).status = 0x12#8 := by decide
theorem test_point : firstFrame (exec (.point 8#4 true) ready) = (13, 0x16D1) := by decide
theorem test_point_off : firstFrame (exec (.point 4#4 false) ready) = (13, 0x16B0) := by decide
/-- V-C1. -/
theorem test_rstpts : firstFrame (exec .rstpts ready) = (13, 0x1690)
    ∧ (after (exec .rstpts ready)).pend.map frameBits = [bitsMSB 0x16B0#13, bitsMSB 0x16D0#13] := by decide
/-- V-C8, and V-E5 for the index past the last. -/
theorem test_setpt :
    (after (exec (.setpt 3#4) { ready with cfg := fourEach })).pend.map frameBits =
      [bitsMSB 0x16B0#13, bitsMSB 0x16D0#13, bitsMSB 0x169D#13] := by decide
theorem test_setpt_bad : (after (exec (.setpt 9#4) ready)).status = 0x16#8
    ∧ (after (exec (.setpt 9#4) ready)).phase = .idle := by decide
/-- V-C9. -/
theorem test_no_points : exec (.setpt 15#4) { ready with cfg := noPoints } = .next { ready with cfg := noPoints } := by
  rfl
/-- V-C6. -/
theorem test_fill : firstFrame (exec (.fill true) ready) = (25, 0x140FFFF)
    ∧ (after (exec (.fill true) ready)).pend.getLast?.map frameBits = some (bitsMSB 0x164FFFF#25) := by decide
theorem test_reserved : (after (exec .reserved ready)).status = 0x06#8 := by decide
/-- V-E6: the first cause is kept. -/
theorem test_reserved_keeps_first_cause :
    (after (exec .reserved { ready with err := true, cause := .badCell })).status = 0x12#8 := by decide
/-- V-F1 to V-F4. -/
theorem test_named_commands :
    firstFrame (exec .sysdis ready) = (12, 0x800) ∧ firstFrame (exec .sysen ready) = (12, 0x802)
    ∧ firstFrame (exec .lcdoff ready) = (12, 0x804) ∧ firstFrame (exec .lcdon ready) = (12, 0x806) := by decide
theorem test_clear_lamptest_draw :
    firstFrame (exec .clear ready) = (25, 0x1400000) ∧ firstFrame (exec .lamptest ready) = (25, 0x140FFFF)
    ∧ firstFrame (exec (.draw 9#4 0#16) ready) = (25, 0x1400000) := by decide
/-- R63: a code without a meaning marks the run; SYSDIS forgets the memory. -/
theorem test_frameCmd : (after (exec (.frameCmd 0x05#8) ready)).rx.refused = true
    ∧ (after (exec (.frameCmd 0x00#8) (after (exec (.frameData4 0x29#6 0x4#4) ready)))).rx.mem.read 0x29 = none := by
  decide
/-- R64: known while the oscillator is on, unknown before. -/
theorem test_frameData4 : (after (exec (.frameData4 0x2B#6 0x6#4) ready)).rx.mem.read 0x2B = some 0x6#4
    ∧ (after (exec (.frameData4 0x2B#6 0x6#4) State.reset)).rx.mem.read 0x2B = none := by decide
/-- V-F25, and R65 past the end. -/
theorem test_frameData16 : four (exec (.frameData16 0x3C#6 0xA5C3#16) ready) 0x3C =
      [some 0xA#4, some 0x5#4, some 0xC#4, some 0x3#4]
    ∧ (after (exec (.frameData16 0x3D#6 0#16) ready)).rx.sys = none := by decide

/-! ### The clock (section 2.3, V-R1 to V-R3) -/

/-- The first edge after `SETUP` has run out drops the clock. -/
theorem test_setup_edge : (after (step { sending with timer := 0 })).sclk = false
    ∧ (after (step { sending with timer := 0 })).timer = 1 := by decide
/-- In the second cycle of `LOW` the data line has the bit; in the first cycle of `HIGH` the receiver has sampled it. -/
theorem test_low_edge :
    (after (step { sending with phase := .low, sclk := false, timer := 1 })).sdata = true
    ∧ (after (step { sending with phase := .low, sclk := false, timer := 0, sdata := true,
                                  rx := { ready.rx with prevCsN := false, prevSclk := false } })).rx.buf = [true] := by
  decide
theorem test_reset_edge : (after (step { sending with inputs := [⟨true, true, 0xFFFFFFFF#32, false⟩] })).status = 0x00#8
    ∧ (after (step { sending with inputs := [⟨true, true, 0xFFFFFFFF#32, false⟩] })).rx.sys = none := by decide

/-! ### Witnesses: for every statement with hypotheses, a case that meets them all -/

/-- The machine ready for a request of the host: `w` is on the port. -/
def offering (w : Word) : State := { ready with inputs := [PortIn.offer w] }

/-- The last cycle of the frame `CMD 0x01`, all its bits sampled. -/
def ending : State := placeFrame (frameBits (.cmd 0x01#8)) ready

theorem sending_Inv : sending.Inv :=
  ⟨by decide, by decide, by decide, by decide, by decide, by decide, by decide, by decide, by decide, by decide,
    by decide⟩

/-- The second cycle of the frame of `sending`: the receiver has seen chip-select fall. -/
def running : State := { sending with rx := { sending.rx with prevCsN := false } }

theorem running_Tracked : running.Tracked :=
  ⟨by decide, by decide, fun _ => ⟨.cmd 0x01#8, rfl, by decide⟩⟩

theorem ending_Inv : ending.Inv :=
  ⟨by decide, by decide, by decide, by decide, by decide, by decide, by decide, by decide, by decide, by decide,
    by decide⟩

theorem ending_Tracked : ending.Tracked :=
  ⟨by decide, by decide, fun _ => ⟨.cmd 0x01#8, rfl, by decide⟩⟩

theorem offering_Inv : (offering 0x40001234#32).Inv :=
  ⟨by decide, by decide, by decide, by decide, by decide, by decide, by decide, by decide, by decide, by decide,
    by decide⟩

theorem offering_Tracked : (offering 0x40001234#32).Tracked :=
  ⟨by decide, by decide, fun h => absurd h (by decide)⟩

theorem witness_DecodeUndoesEncode :
    (Instr.frameData16 0x3C#6 0xFFFF#16).wellFormed = true ∧ (Instr.draw 15#4 0#16).wellFormed = true := by decide
theorem witness_UnusedBitsAreIgnored :
    0x1FFFFF03#32 &&& (decodeRequest 0x00000003#32).usedBits =
      0x00000003#32 &&& (decodeRequest 0x00000003#32).usedBits
    ∧ encode (.setpt 15#4) = .request 0xA000000F#32 := by decide
theorem witness_AssemblerChecksEveryField :
    assemble ['C', 'M', 'D', ' ', '2', '5', '5'] = some 0x000000FF#32
    ∧ assembleOperands .cmd [.on] = none ∧ assembleOperands .draw [.num 0] = none
    ∧ assembleOperands .point [.on] = none := by decide
theorem witness_CellsCoverTheirRangeOnce : cellAddr? 9 = some 0x00#6 ∧ cellAddr? 10 = none := by decide
theorem witness_IndicatorDecoderNeverOverflows : 8 < Config.default.pointCount ∧ 11 < fourEach.pointCount := by decide
/-- `reqReady`, the premise of every request's statement. -/
theorem witness_reqReady : ready.reqReady = true ∧ State.reset.reqReady = true := by decide
theorem witness_CmdSendsOneCommandFrame :
    (0x1FFFFF03#32).extractLsb' 29 3 = 0#3 ∧ 0x03 < (0x04#8).toNat := by decide
theorem witness_Data4SendsOneShortDataFrame :
    (0x2029ABC5#32).extractLsb' 29 3 = 1#3 ∧ (0x2029ABC5#32).extractLsb' 22 2 = 0#2
    ∧ ready.rx.mem.wf ∧ ready.rx.sys = some true := by decide
theorem witness_Data16SendsOneLongDataFrameOrFails :
    (0x20E4FFFF#32).extractLsb' 29 3 = 1#3 ∧ (0x20E4FFFF#32).extractLsb' 22 2 = 3#2
    ∧ (0x3C#6).toNat ≤ 0x3C ∧ 0x3C < (0x3D#6).toNat := by decide
theorem witness_CellWritesOneCellOrFails :
    (0x40001234#32).extractLsb' 29 3 = 2#3 ∧ (9#4).toNat < 10 ∧ 10 ≤ (10#4).toNat := by decide
theorem witness_PointWritesItsClusterOrFails :
    (0x60000104#32).extractLsb' 29 3 = 3#3 ∧ { ready with cfg := noPoints }.reqReady = true
    ∧ noPoints.clusterCount = 0 ∧ 0 < ready.cfg.clusterCount ∧ ready.cfg.pointCount ≤ (9#4).toNat
    ∧ (8#4).toNat < ready.cfg.pointCount := by decide
theorem witness_RstptsClearsEveryCluster :
    (0x80000000#32).extractLsb' 29 3 = 4#3 ∧ expand noPoints .rstpts = some (.ok [])
    ∧ (expand Config.default .rstpts).map (fun e => e.frames.length) = some 3 := by decide
theorem witness_SetptClearsThenLightsOrFails : (0xA0000007#32).extractLsb' 29 3 = 5#3 := by decide
theorem witness_FillWritesEveryCell : (0xC0000100#32).extractLsb' 29 3 = 6#3 := by decide
theorem witness_ReservedWordsRecordTheirCause :
    (0xE0000000#32).extractLsb' 29 3 = 7#3 ∧ (0x20400000#32).extractLsb' 22 2 = 1#2
    ∧ (0x20800000#32).extractLsb' 22 2 = 2#2 := by decide
theorem witness_RequestsWaitWhileNotReady :
    expand sending.cfg .rstpts = some (expandRstpts sending.cfg) ∧ sending.reqReady = false := by decide
theorem witness_RequestsLeaveTheRestUnchanged :
    expand ready.cfg (.cmd 0x01#8) = some (.ok [.cmd 0x01#8])
    ∧ exec (.cmd 0x01#8) ready = .next (ready.start (.cmd 0x01#8) []) := ⟨rfl, rfl⟩
theorem witness_CausesAreRaisedExactlyAsListed : ready.reqReady = true ∧ ready.err = false
    ∧ (after (exec (.setpt 9#4) ready)).err = true ∧ (after (exec (.setpt 8#4) ready)).err = false := by decide
theorem witness_EmptyExpansionsExactlyWithoutIndicators :
    expand noPoints (.point 15#4 true) = some (.ok []) ∧ expand noPoints (.setpt 0#4) = some (.ok []) := by decide
theorem witness_ExpansionsStayInsideTheMemory :
    expand ready.cfg (.data16 0x3C#6 0#16) = some (.ok [.data16 0x3C#6 0#16]) := by decide
theorem witness_DataFramesWriteTheirLocationsOnly : ready.rx.mem.wf ∧ (0x3C#6).toNat + 4 ≤ 64 := by decide
theorem witness_WireFramesLeaveTheBlockUnchanged : wireFrame (.frameCmd 0x03#8) = some (.cmd 0x03#8)
    ∧ exec (.frameCmd 0x03#8) ready = .next (ready.setRx { ready.rx with lcd := some true })
    ∧ 64 < (0x3D#6).toNat + 4 := ⟨rfl, rfl, by decide⟩
theorem witness_MalformedFramesForgetEverything : decode (.wire [true, false, true]) = .error .wrongLength := by decide
theorem witness_MemoriesThatReadAlikeAreEqual : Memory.wf [(0x3F, 0xF#8)] := by decide
theorem witness_FramesAreIdempotent : ready.rx.mem.wf ∧ (Frame.data16 0x3C#6 0#16).inRange = true
    ∧ (0x03#8).toNat ≤ 0x03 := by decide
theorem witness_SetptLightsExactlyOneIndicator :
    ready.rx.mem.wf ∧ ready.rx.sys = some true ∧ (8#4).toNat < Config.default.pointCount
    ∧ (expand Config.default (.setpt 8#4)).map (fun e => e.frames.length) = some 4
    ∧ Config.default.clusterSize ≤ 3 ∧ fourEach.clusterSize = 4 ∧ (11#4).toNat < fourEach.pointCount
    ∧ (11#4).toNat % 4 = 3 := by decide
theorem witness_FillReachesTheCellsOnly :
    (expand Config.default (.fill false)).map (fun e => e.frames.length) = some 10 := by decide
theorem witness_PointReplacesItsWholeCluster :
    expand Config.default (.point 8#4 true) = some (.ok [.data4 0x2D#6 1#4]) := by decide
theorem witness_BootSequenceMakesTheMapKnown : State.reset.rx.mem.wf := by decide
theorem witness_ResetEdgeResetsTheBlockOnly :
    { ready with inputs := [⟨true, false, 0#32, false⟩] }.input.rst = true
    ∧ ready.csN = true ∧ ready.rx.prevCsN = true
    ∧ { ready with inputs := [⟨true, false, 0#32, false⟩] }.input.powerLoss = false := by decide
theorem witness_CutFrameMakesTheReceiverForget :
    { sending with inputs := [⟨true, false, 0#32, false⟩] }.input.rst = true ∧ sending.csN = false := by decide
theorem witness_PowerLossClearsTheReceiver :
    { sending with inputs := [⟨false, false, 0#32, true⟩] }.input.powerLoss = true
    ∧ (after (exec (.frameCmd 0x05#8) sending)).rx.refused = true := by decide
theorem witness_StepRunsTheOfferedRequest :
    (offering 0x00000001#32).phase = .idle ∧ (offering 0x00000001#32).input.rst = false
    ∧ (offering 0x00000001#32).input.reqValid = true ∧ (offering 0x00000001#32).rx.prevCsN = true
    ∧ exec (decodeRequest (offering 0x00000001#32).input.reqWord) (offering 0x00000001#32) =
        .next ((offering 0x00000001#32).start (.cmd 0x01#8) [])
    ∧ ready.phase = .idle ∧ ready.input.rst = false ∧ ready.input.reqValid = false :=
  ⟨rfl, rfl, rfl, rfl, rfl, rfl, rfl, rfl⟩
theorem witness_StepRunsTheReceivedFrame :
    ending.phase = .high ∧ ending.timer = 0 ∧ ending.nbits = 1 ∧ ending.sclk = true ∧ ending.input.rst = false
    ∧ ending.rx.prevCsN = false ∧ ending.rx.prevSclk = true ∧ decode (.wire ending.rx.buf) = .ok (.frameCmd 0x01#8)
    ∧ exec (.frameCmd 0x01#8) (highEdge ending) =
        .next ((highEdge ending).setRx { ending.rx with sys := some true }) :=
  ⟨rfl, rfl, rfl, rfl, rfl, rfl, rfl, by decide, rfl⟩
/-- The premises of the statements about the edge of each phase, with the timer running and run out. -/
theorem witness_edges :
    sending.phase = .setup ∧ sending.input.rst = false ∧ 0 < sending.timer
    ∧ { sending with phase := .low, sclk := false }.phase = .low
    ∧ ending.phase = .high ∧ ending.timer = 0 ∧ 0 < { ending with timer := 1 }.timer
    ∧ { sending with phase := .gap, timer := 0 }.pend = [.cmd 0x03#8] ∧ { ending with phase := .gap }.pend = [] := by
  decide
theorem witness_RequestPortIsIgnoredWhileNotReady : sending.reqReady = false
    ∧ { ready with inputs := [⟨true, true, 0#32, false⟩] }.reqReady = false := by decide
theorem witness_FirstErrorIsKeptUntilReset :
    (offering 0xE0000000#32).phase = .idle ∧ (offering 0xE0000000#32).input.rst = false
    ∧ (offering 0xE0000000#32).input.reqValid = true
    ∧ expand (offering 0xE0000000#32).cfg (decodeRequest (offering 0xE0000000#32).input.reqWord) =
        some (.err .reservedOp)
    ∧ (after (exec .reserved ready)).err = true ∧ (after (exec .reserved ready)).input.rst = false := by decide
theorem witness_ConfigurationNeverChanges : ∃ t, step sending = .next t ∧ exec .reserved ready = .next (ready.failed
    .reservedOp) := ⟨_, rfl, rfl⟩
/-- The data line changes in a step from `LOW`, chip-select in a step from `HIGH`. -/
theorem witness_LinesNeverChangeTogether :
    sending.Inv ∧ sending.input.rst = false ∧ (∃ t, step sending = .next t) ∧ ending.Inv
    ∧ (after (step ending)).csN ≠ ending.csN
    ∧ (after (step { sending with phase := .low, sclk := false, timer := 1 })).sdata ≠ sending.sdata :=
  ⟨sending_Inv, rfl, ⟨_, rfl⟩, ending_Inv, by decide, by decide⟩
theorem witness_EveryStepKeepsTheInvariant : sending.Inv ∧ ∃ t, step sending = .next t := ⟨sending_Inv, _, rfl⟩
theorem witness_EveryStepKeepsTheReceiverTracked :
    ending.Inv ∧ ending.Tracked ∧ ending.input.powerLoss = false ∧ ∃ t, step ending = .next t :=
  ⟨ending_Inv, ending_Tracked, rfl, _, rfl⟩
theorem witness_EveryFinishedFrameIsReceivedWhole :
    ending.Inv ∧ ending.Tracked ∧ ending.input.rst = false ∧ ending.input.powerLoss = false ∧ ending.csN = false
    ∧ (∃ t, step ending = .next t) ∧ (after (step ending)).csN = true :=
  ⟨ending_Inv, ending_Tracked, rfl, rfl, rfl, ⟨_, rfl⟩, by decide⟩
/-- Its second clause: chip-select stays asserted, or is deasserted before the step. -/
theorem witness_EveryFinishedFrameIsReceivedWhole_otherwise :
    running.Tracked ∧ running.input.powerLoss = false ∧ (∃ t, step running = .next t)
    ∧ (after (step running)).csN = false
    ∧ (offering 0x40001234#32).Tracked ∧ (offering 0x40001234#32).csN = true :=
  ⟨running_Tracked, rfl, ⟨_, rfl⟩, by decide, offering_Tracked, rfl⟩
/-- Each cause is some state's, so each code of `StatusWordFields` is said of one. -/
theorem witness_StatusWordFields :
    ready.cause = .none ∧ (ready.failed .reservedOp).cause = .reservedOp ∧ (ready.failed .badWidth).cause = .badWidth
    ∧ (ready.failed .addrRange).cause = .addrRange ∧ (ready.failed .badCell).cause = .badCell
    ∧ (ready.failed .badPoint).cause = .badPoint := by decide
theorem witness_EveryPhaseLastsItsCycles :
    sending.phase = .setup ∧ sending.timer = sending.cfg.ns - 1 ∧ sending.csN = false ∧ sending.sclk = true
    ∧ 1 ≤ sending.nbits ∧ sending.nbits ≤ 25 ∧ sending.noReset (frameCycles sending.cfg sending.nbits) :=
  ⟨rfl, rfl, rfl, rfl, by decide, by decide, fun _ _ => rfl⟩
theorem witness_AcceptedRequestsAreDeliveredInTime :
    (offering 0x40001234#32).Inv ∧ (offering 0x40001234#32).Tracked ∧ (offering 0x40001234#32).phase = .idle
    ∧ (offering 0x40001234#32).input.reqValid = true
    ∧ expand (offering 0x40001234#32).cfg (decodeRequest (offering 0x40001234#32).input.reqWord) =
        some (.ok [.data16 0x24#6 0x1234#16])
    ∧ (offering 0x40001234#32).noReset 105 ∧ (offering 0x40001234#32).powered 105 :=
  ⟨offering_Inv, offering_Tracked, rfl, rfl, by decide, fun k _ => by cases k <;> rfl, fun k _ => by cases k <;> rfl⟩
theorem witness_BusyCyclesOfEachRequest :
    (expand Config.default (.setpt 7#4)).map (fun e => requestCycles Config.default e.frames) = some 224
    ∧ (expand Config.default (.fill true)).map (fun e => requestCycles Config.default e.frames) = some 1040
    ∧ expand Config.default .reserved = some (.err .reservedOp) := by decide

end Sys2Proof.Tests
end

section
/-! SUPPORT and PROOF. What a request can put on the wire, and the block's flags and status word: each expansion is
bounded and stays inside the display memory (R27, R69). Settles O24, O28 and O43. -/

namespace Sys2Proof

/-! ### Frames inside the memory (R69) -/

@[simp] theorem Frame.inRange_cmd (code : Code) : (Frame.cmd code).inRange = true := rfl

/-- A 4-bit frame fills one location, and every address is one of the 64. -/
@[simp] theorem Frame.inRange_data4 (addr : Addr) (value : Nibble) : (Frame.data4 addr value).inRange = true := by
  have := addr.isLt
  simp only [Frame.inRange, decide_eq_true_eq]
  omega

theorem Frame.inRange_data16 (addr : Addr) (value : Pattern) :
    (Frame.data16 addr value).inRange = true ↔ addr.toNat + 4 ≤ 64 := by
  simp [Frame.inRange]

namespace Machine

theorem cellAddr?_toNat_le {p : Nat} {a : Addr} (h : cellAddr? p = some a) : a.toNat + 4 ≤ 64 := by
  have memAll : ∀ b ∈ cellAddrTable, b.toNat + 4 ≤ 64 := by decide
  exact memAll a (List.mem_of_getElem? h)

@[simp] theorem clearFrames_length (c : Config) : (clearFrames c).length = c.clusterCount := by
  simp [clearFrames]

theorem inRange_of_mem_clearFrames {c : Config} {f : Frame} (h : f ∈ clearFrames c) : f.inRange = true := by
  obtain ⟨k, -, rfl⟩ := List.mem_map.mp h
  exact Frame.inRange_data4 _ _

/-! ### Expansions -/

/-- The bounds on an expansion: as many frames as there are cells, or one more than there are clusters (R27), each
inside the display memory (R69). -/
def Expansion.Bounded (c : Config) (e : Expansion) : Prop :=
  e.frames.length ≤ max cellCount (c.clusterCount + 1) ∧ ∀ f ∈ e.frames, f.inRange = true

section
variable (c : Config)

theorem Expansion.bounded_err (k : Cause) : (Expansion.err k).Bounded c := by
  simp [Expansion.Bounded, Expansion.frames]

theorem Expansion.bounded_empty : (Expansion.ok []).Bounded c := by
  simp [Expansion.Bounded, Expansion.frames]

theorem Expansion.bounded_single {f : Frame} (h : f.inRange = true) : (Expansion.ok [f]).Bounded c := by
  simp [Expansion.Bounded, Expansion.frames, h]

theorem expandCmd_bounded (code : Code) : (expandCmd code).Bounded c :=
  Expansion.bounded_single c (Frame.inRange_cmd code)

theorem expandData4_bounded (addr : Addr) (nib : Nibble) : (expandData4 addr nib).Bounded c := by
  unfold expandData4
  split
  · exact Expansion.bounded_err c _
  · exact Expansion.bounded_single c (Frame.inRange_data4 addr nib)

theorem expandData16_bounded (addr : Addr) (value : Pattern) : (expandData16 addr value).Bounded c := by
  unfold expandData16
  split
  · exact Expansion.bounded_err c _
  next h => exact Expansion.bounded_single c ((Frame.inRange_data16 addr value).mpr (Nat.le_of_not_lt h))

theorem expandCell_bounded (pos : BitVec 4) (pattern : Pattern) : (expandCell pos pattern).Bounded c := by
  unfold expandCell
  split
  · exact Expansion.bounded_err c _
  next a h => exact Expansion.bounded_single c ((Frame.inRange_data16 a pattern).mpr (cellAddr?_toNat_le h))

theorem expandPoint_bounded (index : BitVec 4) (on : Bool) : (expandPoint c index on).Bounded c := by
  unfold expandPoint
  split
  · exact Expansion.bounded_empty c
  · split
    · exact Expansion.bounded_err c _
    · exact Expansion.bounded_single c (Frame.inRange_data4 _ _)

theorem expandRstpts_bounded : (expandRstpts c).Bounded c := by
  refine ⟨?_, fun f hf => inRange_of_mem_clearFrames hf⟩
  simp only [expandRstpts, Expansion.frames, clearFrames_length]
  omega

/-- The longest of the expansions that depend on the configuration: every cluster is cleared, then one is lit. -/
theorem expandSetpt_bounded (index : BitVec 4) : (expandSetpt c index).Bounded c := by
  by_cases hi : index.toNat < c.pointCount
  · rw [expandSetpt_ok hi]
    refine ⟨by simp [Expansion.frames], fun f hf => ?_⟩
    rcases List.mem_append.mp hf with hf | hf
    · exact inRange_of_mem_clearFrames hf
    · rw [List.mem_singleton.mp hf]
      exact Frame.inRange_data4 _ _
  · unfold expandSetpt
    rw [if_pos (Nat.le_of_not_lt hi)]
    split
    · exact Expansion.bounded_empty c
    · exact Expansion.bounded_err c _

/-- The longest of the expansions that do not depend on the configuration: the ten cells. -/
theorem expandFill_bounded (on : Bool) : (expandFill on).Bounded c := by
  have hlen : (expandFill on).frames.length = cellCount := rfl
  refine ⟨hlen ▸ le_max_left _ _, ?_⟩
  cases on <;> decide

theorem expand_bounded {i : Instr} {e : Expansion} (h : expand c i = some e) : e.Bounded c := by
  cases i <;> simp only [expand, Option.some.injEq, reduceCtorEq] at h <;> subst h
  case cmd code => exact expandCmd_bounded c code
  case data4 addr nib => exact expandData4_bounded c addr nib
  case data16 addr value => exact expandData16_bounded c addr value
  case dataw01 | dataw10 | reserved => exact Expansion.bounded_err c _
  case cell pos pattern | draw pos pattern => exact expandCell_bounded c pos pattern
  case point index on => exact expandPoint_bounded c index on
  case rstpts => exact expandRstpts_bounded c
  case setpt index => exact expandSetpt_bounded c index
  case fill on => exact expandFill_bounded c on
  case sysdis | sysen | lcdoff | lcdon => exact expandCmd_bounded c _
  case clear | lamptest => exact expandFill_bounded c _

end

/-! ### A block that is not ready (R30, R256) -/

theorem State.offered_of_not_ready {s : State} (h : s.reqReady = false) (e : Expansion) : s.offered e = s := by
  simp [State.offered, h]

/-! ### The flags and the status word (R30, R31, R33) -/

theorem State.busy_iff (s : State) : s.busy = true ↔ s.phase ≠ .idle := decide_eq_true_iff

theorem State.reqReady_iff (s : State) : s.reqReady = true ↔ s.phase = .idle ∧ s.input.rst = false := by
  simp [State.reqReady]

/-- Every bit of the status word; the bits above the cause read past its code, so they are 0. -/
theorem State.status_getLsbD (s : State) (i : Nat) :
    s.status.getLsbD i = if i = 0 then s.busy else if i = 1 then s.err else s.cause.code.getLsbD (i - 2) := by
  change (0#3 ++ s.cause.code ++ BitVec.ofBool s.err ++ BitVec.ofBool s.busy).getLsbD i = _
  simp only [BitVec.getLsbD_append]
  match i with
  | 0 => simp
  | 1 => simp
  | i + 2 => simpa using BitVec.lt_of_getLsbD

theorem State.status_busy (s : State) : s.status.getLsbD 0 = s.busy := s.status_getLsbD 0

theorem State.status_err (s : State) : s.status.getLsbD 1 = s.err := s.status_getLsbD 1

theorem State.status_cause (s : State) : s.status.extractLsb' 2 3 = s.cause.code := by
  apply BitVec.eq_of_getLsbD_eq
  intro i hi
  rw [BitVec.getLsbD_extractLsb', State.status_getLsbD, if_neg (by omega), if_neg (by omega), Nat.add_sub_cancel_left]
  simp [hi]

theorem State.status_top (s : State) : s.status.extractLsb' 5 3 = 0#3 := by
  apply BitVec.eq_of_getLsbD_eq
  intro i _
  rw [BitVec.getLsbD_extractLsb', State.status_getLsbD, if_neg (by omega), if_neg (by omega),
    BitVec.getLsbD_of_ge _ _ (by omega)]
  simp

/-! ### The obligations -/

/-- Settles O24: a request is its expansion offered to the port, and a port that is not ready takes nothing. -/
theorem requestsWaitWhileNotReady : Obligations.RequestsWaitWhileNotReady := by
  intro i e s he hready
  rw [exec_request s rfl he, State.offered_of_not_ready hready]

/-- Settles O28, from the bounds on each request's expansion. -/
theorem expansionsStayInsideTheMemory : Obligations.ExpansionsStayInsideTheMemory :=
  fun c _ _ h => expand_bounded c h

/-- Settles O43, field by field of the status word. -/
theorem statusWordFields : Obligations.StatusWordFields := by
  intro s
  have hcode (k : Cause) (h : s.cause = k) : s.status.extractLsb' 2 3 = k.code := h ▸ s.status_cause
  exact ⟨s.busy_iff, s.reqReady_iff, s.status_busy ▸ s.busy_iff, s.status_err, s.status_top,
    hcode .none, hcode .reservedOp, hcode .badWidth, hcode .addrRange, hcode .badCell, hcode .badPoint,
    rfl, rfl, rfl, rfl, rfl, rfl⟩

end Machine

end Sys2Proof
end

section
/-! SUPPORT and PROOF. The receiver: which bit sequences are frames (R63 to R65), what a command frame and a data frame
leave at the receiver, the canonical memory, and the cycles that end a frame, cut it or take the peripheral's power
(R62, R66, R67). Settles O6, O29 to O34, O41, O42 and O45. -/

namespace Sys2Proof.Machine

/-! ### The decoder on the wire (R63, R64, R89) -/

/-- The bits of a command frame, whatever its pad bit. -/
theorem decodeFrame_command (code : Code) (pad : Bool) :
    decodeFrame ([true, false, false] ++ bitsMSB code ++ [pad]) = .ok (.frameCmd code) := by
  change decodeCommandPayload (bitsMSB code ++ [pad]) = _
  simp [decodeCommandPayload]

theorem decodeFrame_data16_of_passesEnd {addr : Addr} (h : ¬ addr.toNat + 4 ≤ 64) (value : Pattern) :
    decodeFrame (frameBits (.data16 addr value)) = .error .passesEnd := by
  change decodeDataPayload (bitsMSB addr ++ bitsMSB value) = _
  simp [decodeDataPayload, h]

/-- After the leading `100`, an accepted sequence is a code and one more bit. -/
theorem decodeCommandPayload_ok {rest : List Bool} {i : Instr} (h : decodeCommandPayload rest = .ok i) :
    ∃ code pad, i = .frameCmd code ∧ rest = bitsMSB code ++ [pad] := by
  unfold decodeCommandPayload at h
  split at h
  next hlen =>
    obtain ⟨pad, hpad⟩ : ∃ pad, rest.drop 8 = [pad] := List.length_eq_one_iff.mp (by simp [hlen])
    refine ⟨readMSB 8 (rest.take 8), pad, (Except.ok.inj h).symm, ?_⟩
    rw [bitsMSB_readMSB _ (by simp [hlen]), ← hpad, List.take_append_drop]
  · cases h

/-- An address and a value of width `n` that are read from a sequence of that length spell it. -/
theorem bitsMSB_readMSB_take_append_drop {n : Nat} {rest : List Bool} (h : rest.length = 6 + n) :
    bitsMSB (readMSB 6 (rest.take 6)) ++ bitsMSB (readMSB n (rest.drop 6)) = rest := by
  rw [bitsMSB_readMSB _ (by simp; omega), bitsMSB_readMSB _ (by simp; omega), List.take_append_drop]

/-- After the leading `101`, an accepted sequence is the address and the value of a data frame inside the memory. -/
theorem decodeDataPayload_ok {rest : List Bool} {i : Instr} (h : decodeDataPayload rest = .ok i) :
    ∃ f : Frame, f.inRange = true ∧ i = instrOfFrame f ∧ [true, false, true] ++ rest = frameBits f := by
  simp only [decodeDataPayload] at h
  split at h
  next hlen =>
    refine ⟨.data4 (readMSB 6 (rest.take 6)) (readMSB 4 (rest.drop 6)), Frame.inRange_data4 _ _, ?_, ?_⟩
    · split at h
      · exact (Except.ok.inj h).symm
      · cases h
    · rw [frameBits, List.append_assoc, bitsMSB_readMSB_take_append_drop hlen]
  · split at h
    next hlen =>
      split at h
      next hin =>
        refine ⟨.data16 (readMSB 6 (rest.take 6)) (readMSB 16 (rest.drop 6)), (Frame.inRange_data16 _ _).mpr hin,
          (Except.ok.inj h).symm, ?_⟩
        rw [frameBits, List.append_assoc, bitsMSB_readMSB_take_append_drop hlen]
      · cases h
    · cases h

/-- An accepted sequence spells a frame inside the memory; only a command frame's pad bit is free. -/
theorem frameBits_of_decodeFrame_ok {bits : List Bool} {i : Instr} (h : decodeFrame bits = .ok i) :
    ∃ f : Frame, f.inRange = true ∧ i = instrOfFrame f ∧
      (bits = frameBits f ∨ ∃ code, f = .cmd code ∧ bits = [true, false, false] ++ bitsMSB code ++ [true]) := by
  unfold decodeFrame at h
  split at h
  case h_1 =>
    obtain ⟨code, pad, rfl, rfl⟩ := decodeCommandPayload_ok h
    refine ⟨.cmd code, rfl, rfl, ?_⟩
    cases pad
    · exact .inl rfl
    · exact .inr ⟨code, rfl, rfl⟩
  case h_2 =>
    obtain ⟨f, hin, hi, hbits⟩ := decodeDataPayload_ok h
    exact ⟨f, hin, hi, .inl hbits⟩
  all_goals cases h

/-! ### Memories in canonical form (R61) -/

theorem Memory.wf_cons {b : Nat} {x : BitVec 8} {m : Memory} (h : Memory.wf ((b, x) :: m)) :
    (∀ y ∈ m, b < y.1) ∧ x.toNat < 16 ∧ m.wf := by
  obtain ⟨hsorted, hcells⟩ := h
  obtain ⟨hhead, htail⟩ := List.pairwise_cons.mp hsorted
  exact ⟨hhead, (hcells _ List.mem_cons_self).2, htail, fun y hy => hcells y (List.mem_cons_of_mem _ hy)⟩

@[simp] theorem Memory.read_cons_head (b : Nat) (x : BitVec 8) (m : Memory) :
    Memory.read ((b, x) :: m) b = some (x.setWidth 4) := if_pos rfl

/-- A memory lists nothing below its first address, so one that reads alike does not start later. -/
theorem Memory.head_le_of_read_eq {b b' : Nat} {x x' : BitVec 8} {m m' : Memory} (hm' : Memory.wf ((b', x') :: m'))
    (h : ∀ a, Memory.read ((b, x) :: m) a = Memory.read ((b', x') :: m') a) : b' ≤ b := by
  by_contra hlt
  obtain ⟨hhead, -, -⟩ := Memory.wf_cons hm'
  have hnone : Memory.read ((b', x') :: m') b = none := by
    refine Memory.read_eq_none_of_lt fun y hy => ?_
    rcases List.mem_cons.mp hy with rfl | hy
    · exact Nat.lt_of_not_le hlt
    · exact (Nat.lt_of_not_le hlt).trans (hhead y hy)
  simp [← h b] at hnone

/-- Contents of 4 bits are told apart by what is read of them. -/
theorem eq_of_setWidth_four_eq {x y : BitVec 8} (hx : x.toNat < 16) (hy : y.toNat < 16)
    (h : x.setWidth 4 = y.setWidth 4) : x = y := by
  have hnat := congrArg BitVec.toNat h
  simp only [BitVec.toNat_setWidth] at hnat
  exact BitVec.eq_of_toNat_eq (by omega)

theorem Memory.eq_of_read_eq {m m' : Memory} (hm : m.wf) (hm' : m'.wf) (h : ∀ a, m.read a = m'.read a) : m = m' := by
  induction m generalizing m' with
  | nil =>
    cases m' with
    | nil => rfl
    | cons c' m' =>
      obtain ⟨b', x'⟩ := c'
      simpa using h b'
  | cons c m ih =>
    obtain ⟨b, x⟩ := c
    cases m' with
    | nil => simpa using h b
    | cons c' m' =>
      obtain ⟨b', x'⟩ := c'
      obtain rfl : b = b' :=
        le_antisymm (Memory.head_le_of_read_eq hm fun a => (h a).symm) (Memory.head_le_of_read_eq hm' h)
      obtain ⟨hhead, hx, hm⟩ := Memory.wf_cons hm
      obtain ⟨hhead', hx', hm'⟩ := Memory.wf_cons hm'
      have hcontent : x.setWidth 4 = x'.setWidth 4 := by simpa using h b
      have htail : ∀ a, Memory.read m a = Memory.read m' a := by
        intro a
        by_cases hab : b = a
        · rw [← hab, Memory.read_eq_none_of_lt hhead, Memory.read_eq_none_of_lt hhead']
        · simpa [Memory.read_cons, hab] using h a
      rw [eq_of_setWidth_four_eq hx hx' hcontent, ih hm hm' htail]

/-! ### A command frame at the receiver (R63) -/

/-- Everything a command code can do. -/
theorem Rx.command_cases (rx : Rx) (code : Code) :
    (code = 0x00#8 ∧ rx.command code = { rx with sys := some false, mem := [] })
    ∨ (code = 0x01#8 ∧ rx.command code = { rx with sys := some true })
    ∨ (code = 0x02#8 ∧ rx.command code = { rx with lcd := some false })
    ∨ (code = 0x03#8 ∧ rx.command code = { rx with lcd := some true })
    ∨ (0x03 < code.toNat ∧ rx.command code = { rx with refused := true }) := by
  by_cases h0 : code = 0x00#8
  · exact .inl ⟨h0, if_pos h0⟩
  by_cases h1 : code = 0x01#8
  · subst h1; exact .inr (.inl ⟨rfl, rfl⟩)
  by_cases h2 : code = 0x02#8
  · subst h2; exact .inr (.inr (.inl ⟨rfl, rfl⟩))
  by_cases h3 : code = 0x03#8
  · subst h3; exact .inr (.inr (.inr (.inl ⟨rfl, rfl⟩)))
  · exact .inr (.inr (.inr (.inr ⟨by bv_omega, by simp [Rx.command, h0, h1, h2, h3]⟩)))

/-- The fields a command frame may change, and when it changes them. -/
theorem Rx.command_fields (rx : Rx) (code : Code) :
    (rx.command code).sys =
        (if code = 0x00#8 then some false else if code = 0x01#8 then some true else rx.sys)
    ∧ (rx.command code).lcd =
        (if code = 0x02#8 then some false else if code = 0x03#8 then some true else rx.lcd)
    ∧ (rx.command code).refused = (rx.refused || decide (0x03 < code.toNat))
    ∧ (rx.command code).mem = if code = 0x00#8 then [] else rx.mem := by
  rcases rx.command_cases code with ⟨rfl, h⟩ | ⟨rfl, h⟩ | ⟨rfl, h⟩ | ⟨rfl, h⟩ | ⟨hc, h⟩ <;> rw [h]
  case inr.inr.inr.inr =>
    have hne (k : Code) (hk : k.toNat ≤ 0x03) : code ≠ k := fun heq => by rw [heq] at hc; omega
    simp [hne, hc]
  all_goals simp

theorem Rx.command_command (rx : Rx) (code : Code) : (rx.command code).command code = rx.command code := by
  unfold Rx.command
  split_ifs <;> rfl

/-! ### A data frame at the receiver (R64, R65) -/

theorem Rx.apply_data16_of_passesEnd (rx : Rx) {addr : Addr} (h : ¬ addr.toNat + 4 ≤ 64) (value : Pattern) :
    rx.apply (.data16 addr value) = rx.forget :=
  if_neg (mt (Frame.inRange_data16 addr value).mp h)

/-- What is stored for a nibble depends on the oscillator flag alone. -/
theorem Rx.stored_congr {rx rx' : Rx} (h : rx.sys = rx'.sys) (n : Nibble) : rx.stored n = rx'.stored n := by
  simp only [Rx.stored, h]

/-- A data frame received again stores what it has stored, at the same locations. -/
theorem Rx.read_apply_apply_data {rx : Rx} (hm : rx.mem.wf) {f : Frame} (hr : f.inRange = true)
    (hc : ∀ code, f ≠ .cmd code) (a : Nat) : ((rx.apply f).apply f).mem.read a = (rx.apply f).mem.read a := by
  have hstored : (rx.apply f).stored = rx.stored :=
    funext fun n => Rx.stored_congr (by rw [Rx.apply_data rx hr hc]) n
  have hm' : (rx.apply f).mem.wf := Rx.wf_apply hm f
  cases f with
  | cmd code => exact absurd rfl (hc code)
  | data4 addr value =>
    rw [Rx.read_apply_data4 hm', Rx.read_apply_data4 hm, hstored]
    split <;> rfl
  | data16 addr value =>
    have haddr := (Frame.inRange_data16 addr value).mp hr
    rw [Rx.read_apply_data16 hm' haddr, Rx.read_apply_data16 hm haddr, hstored]
    split <;> rfl

theorem Rx.apply_apply_data {rx : Rx} (hm : rx.mem.wf) {f : Frame} (hr : f.inRange = true)
    (hc : ∀ code, f ≠ .cmd code) : (rx.apply f).apply f = rx.apply f := by
  rw [Rx.apply_data (rx.apply f) hr hc, Memory.eq_of_read_eq (Rx.wf_apply (Rx.wf_apply hm f) f) (Rx.wf_apply hm f)
    (Rx.read_apply_apply_data hm hr hc)]

/-! ### The end of a frame at the receiver (R62, R65) -/

theorem Rx.interpreted_of_ok (rx : Rx) {bits : List Bool} {f : Frame} (h : decodeFrame bits = .ok (instrOfFrame f)) :
    rx.interpreted bits = rx.apply f := by
  simp [Rx.interpreted, h]

theorem Rx.interpreted_of_error (rx : Rx) {bits : List Bool} {e : DecodeError} (h : decodeFrame bits = .error e) :
    rx.interpreted bits = rx.forget := by
  simp [Rx.interpreted, h]

/-- While chip-select is deasserted the receiver samples nothing. -/
@[simp] theorem Rx.sample_deasserted (rx : Rx) (sclk sdata : Bool) : rx.sample true sclk sdata = rx := by
  simp [Rx.sample]

theorem Rx.received_of_frameEnd {rx : Rx} (h : rx.prevCsN = false) (sclk sdata : Bool) :
    rx.received false true sclk sdata = rx.interpreted rx.buf := by
  simp [Rx.received, Rx.frameEnds, h]

theorem Rx.received_of_cut (rx : Rx) (csN sclk sdata : Bool) :
    rx.received true csN sclk sdata = (rx.sample csN sclk sdata).forget := rfl

/-! ### `RX.refused` is never cleared (R61) -/

theorem Rx.refused_apply {rx : Rx} (h : rx.refused = true) (f : Frame) : (rx.apply f).refused = true := by
  cases f with
  | cmd code =>
    obtain ⟨-, -, hrefused, -⟩ := rx.command_fields code
    exact hrefused.trans (by rw [h, Bool.true_or])
  | data4 addr value =>
    obtain ⟨-, -, hrefused⟩ := rx.apply_data4_flags addr value
    exact hrefused.trans h
  | data16 addr value =>
    by_cases haddr : addr.toNat + 4 ≤ 64
    · obtain ⟨-, -, hrefused⟩ := rx.apply_data16_flags haddr value
      exact hrefused.trans h
    · rw [rx.apply_data16_of_passesEnd haddr]
      exact h

theorem Rx.refused_interpreted {rx : Rx} (h : rx.refused = true) (bits : List Bool) :
    (rx.interpreted bits).refused = true := by
  cases hd : decodeFrame bits with
  | error e => rw [rx.interpreted_of_error hd]; exact h
  | ok i =>
    obtain ⟨f, -, rfl⟩ := decodeFrame_ok hd
    rw [rx.interpreted_of_ok hd]
    exact Rx.refused_apply h f

theorem Rx.refused_received {rx : Rx} (h : rx.refused = true) (cut csN sclk sdata : Bool) :
    (rx.received cut csN sclk sdata).refused = true := by
  unfold Rx.received
  split_ifs
  · exact h
  · exact Rx.refused_interpreted (rx := rx.sample csN sclk sdata) h _
  · exact h

/-! ### The inputs of a cycle (R20, R111) -/

/-- The same state with other inputs in this cycle and the following ones. -/
def State.withInputs (s : State) (l : List PortIn) : State := { s with inputs := l }

section
variable (s : State) (l : List PortIn)

@[simp] theorem State.withInputs_cfg : (s.withInputs l).cfg = s.cfg := rfl
@[simp] theorem State.withInputs_phase : (s.withInputs l).phase = s.phase := rfl
@[simp] theorem State.withInputs_pend : (s.withInputs l).pend = s.pend := rfl
@[simp] theorem State.withInputs_input : (s.withInputs l).input = l.headD PortIn.quiet := rfl

theorem State.recordError_withInputs (c : Cause) :
    (s.withInputs l).recordError c = (s.recordError c).withInputs l := by
  rw [State.recordError, State.recordError, apply_ite (State.withInputs · l)]; rfl

@[simp] theorem State.accept_withInputs (e : Expansion) :
    (s.withInputs l).accept e = (s.accept e).withInputs l := by
  match e with
  | .err c => exact s.recordError_withInputs l c
  | .ok [] => rfl
  | .ok (_ :: _) => rfl

@[simp] theorem setupEdge_withInputs : setupEdge (s.withInputs l) = (setupEdge s).withInputs l := by
  rw [setupEdge, setupEdge, apply_ite (State.withInputs · l)]; rfl

@[simp] theorem lowEdge_withInputs : lowEdge (s.withInputs l) = (lowEdge s).withInputs l := by
  simp only [lowEdge, apply_ite (State.withInputs · l)]; rfl

@[simp] theorem highEdge_withInputs : highEdge (s.withInputs l) = (highEdge s).withInputs l := by
  simp only [highEdge, apply_ite (State.withInputs · l)]; rfl

@[simp] theorem gapEdge_withInputs : gapEdge (s.withInputs l) = (gapEdge s).withInputs l := by
  rw [gapEdge, gapEdge, apply_ite (State.withInputs · l), State.withInputs_pend]
  cases s.pend <;> rfl

end

/-- Of the inputs, the block's edge reads this cycle's levels on the three ports and nothing else. -/
theorem blockNext_withInputs {s : State} {l : List PortIn} (hrst : (l.headD PortIn.quiet).rst = s.input.rst)
    (hvalid : (l.headD PortIn.quiet).reqValid = s.input.reqValid)
    (hword : (l.headD PortIn.quiet).reqWord = s.input.reqWord) :
    blockNext (s.withInputs l) = (blockNext s).withInputs l := by
  unfold blockNext
  simp only [State.withInputs_input, hrst, hvalid, hword, State.withInputs_phase, State.withInputs_cfg]
  split
  · rfl
  · cases s.phase with
    | idle => simp only [State.accept_withInputs, apply_ite (State.withInputs · l)]
    | setup => exact setupEdge_withInputs s l
    | low => exact lowEdge_withInputs s l
    | high => exact highEdge_withInputs s l
    | gap => exact gapEdge_withInputs s l

/-! ### The cycle before and at its end (R62, R67) -/

/-- The machine after the block's edge and the receiver's look at the new lines: a cycle but for its end. -/
def State.looked (s : State) : State :=
  (blockNext s).setRx ((blockNext s).rx.received s.cutsFrame (blockNext s).csN (blockNext s).sclk (blockNext s).sdata)

theorem stepNext_eq_endCycle (s : State) : stepNext s = endCycle s.looked := rfl

theorem State.looked_inputs (s : State) : s.looked.inputs = s.inputs := blockNext_inputs s

theorem State.looked_input (s : State) : s.looked.input = s.input := congrArg (List.headD · _) s.looked_inputs

theorem State.looked_withInputs {s : State} {l : List PortIn} (hrst : (l.headD PortIn.quiet).rst = s.input.rst)
    (hvalid : (l.headD PortIn.quiet).reqValid = s.input.reqValid)
    (hword : (l.headD PortIn.quiet).reqWord = s.input.reqWord) :
    (s.withInputs l).looked = s.looked.withInputs l := by
  have hcut : (s.withInputs l).cutsFrame = s.cutsFrame := congrArg (· && !s.csN) hrst
  rw [State.looked, blockNext_withInputs hrst hvalid hword, hcut]
  rfl

/-- At a rising chip-select that no reset caused, the frame that the sampled bits spell is applied (R62, R69). -/
theorem State.looked_of_frameEnd {s : State} {f : Frame} (hcut : s.cutsFrame = false)
    (hprev : s.rx.prevCsN = false) (hend : (blockNext s).csN = true)
    (hbuf : decodeFrame s.rx.buf = .ok (instrOfFrame f)) : s.looked = (blockNext s).setRx (s.rx.apply f) := by
  rw [State.looked, blockNext_rx, hcut, hend, Rx.received_of_frameEnd hprev, Rx.interpreted_of_ok _ hbuf]

theorem State.refused_looked {s : State} (h : s.rx.refused = true) : s.looked.rx.refused = true := by
  refine Rx.refused_received ?_ _ _ _ _
  rw [blockNext_rx]
  exact h

theorem blockNext_of_rst {s : State} (h : s.input.rst = true) : blockNext s = s.resetBlock := if_pos h

/-- A reset that cuts a frame leaves the block in reset and the receiver without its content (R66). -/
theorem State.looked_of_cut {s : State} (hrst : s.input.rst = true) (hcs : s.csN = false) :
    s.looked = s.resetBlock.setRx s.rx.forget := by
  have hcut : s.cutsFrame = true := by simp [State.cutsFrame, hrst, hcs]
  rw [State.looked, blockNext_of_rst hrst, hcut, State.resetBlock_csN, Rx.received_of_cut, Rx.sample_deasserted]
  rfl

theorem endCycle_rx_of_powerLoss {s : State} (h : s.input.powerLoss = true) : (endCycle s).rx = s.rx.losePower :=
  if_pos h

theorem endCycle_rx_of_powered {s : State} (h : s.input.powerLoss = false) :
    (endCycle s).rx = s.rx.remember s.csN s.sclk := if_neg (by simp [h])

/-- A receiver that has lost its content has none at the end of the cycle either. -/
theorem endCycle_rx_of_forgotten {s : State} (hmem : s.rx.mem = []) (hsys : s.rx.sys = none) (hlcd : s.rx.lcd = none) :
    (endCycle s).rx.mem = [] ∧ (endCycle s).rx.sys = none ∧ (endCycle s).rx.lcd = none
      ∧ (endCycle s).rx.refused = s.rx.refused := by
  cases h : s.input.powerLoss with
  | true => rw [endCycle_rx_of_powerLoss h]; exact ⟨rfl, rfl, rfl, rfl⟩
  | false => rw [endCycle_rx_of_powered h]; exact ⟨hmem, hsys, hlcd, rfl⟩

/-- This cycle's inputs make a difference at its end to the receiver alone. -/
theorem endCycle_eq_setRx {s : State} {l : List PortIn} (h : l.tail = s.inputs.tail) :
    endCycle s = (endCycle (s.withInputs l)).setRx (endCycle s).rx := by
  simp [endCycle, State.withInputs, State.setRx, h]

/-- The same state, without a power loss in this cycle. -/
def State.withPower (s : State) : State := s.withInputs ({ s.input with powerLoss := false } :: s.inputs.tail)

theorem stepNext_withPower (s : State) : stepNext s.withPower = endCycle (s.looked.withInputs s.withPower.inputs) :=
  congrArg endCycle (State.looked_withInputs (s := s) (l := s.withPower.inputs) rfl rfl rfl)

/-! ### The obligations -/

/-- Settles O6: an accepted sequence spells a frame, and the bits of a frame are accepted with either pad bit. -/
theorem wireDecoderAcceptsExactlyFrames : Obligations.WireDecoderAcceptsExactlyFrames := by
  refine fun bits i => ⟨frameBits_of_decodeFrame_ok, ?_⟩
  rintro ⟨f, hin, rfl, rfl | ⟨code, rfl, rfl⟩⟩
  · exact decodeFrame_frameBits hin
  · exact decodeFrame_command code true

/-- Settles O29, from the fields that a command frame may change. -/
theorem commandFramesSetReceiverFlags : Obligations.CommandFramesSetReceiverFlags := by
  refine ⟨decodeFrame_command, fun code s => ?_⟩
  obtain ⟨hsys, hlcd, hrefused, hmem⟩ := s.rx.command_fields code
  refine ⟨s.rx.apply (.cmd code), exec_wire s rfl, Rx.apply_buf _ _, Rx.apply_prevCsN _ _, Rx.apply_prevSclk _ _,
    hsys, hlcd, hrefused, fun a => ?_⟩
  rw [Rx.apply, hmem]
  split <;> rfl

/-- Settles O30, from what each data frame leaves at every location. -/
theorem dataFramesWriteTheirLocationsOnly : Obligations.DataFramesWriteTheirLocationsOnly := by
  refine ⟨fun addr v s hm => ?_, fun addr v => decodeFrame_frameBits (Frame.inRange_data4 addr v), fun addr v => ?_,
    fun addr v s hm haddr => ?_⟩
  · refine ⟨(s.rx.apply (.data4 addr v)).mem, ?_, ?_, fun a ha => ?_⟩
    · rw [← Rx.apply_data s.rx (Frame.inRange_data4 addr v) (by simp)]
      exact exec_wire s rfl
    · rw [Rx.read_apply_data4 hm, if_pos rfl]; rfl
    · rw [Rx.read_apply_data4 hm, if_neg ha]
  · split
    next haddr => exact decodeFrame_frameBits ((Frame.inRange_data16 addr v).mpr haddr)
    next haddr => exact decodeFrame_data16_of_passesEnd haddr v
  · refine ⟨(s.rx.apply (.data16 addr v)).mem, ?_, fun j hj => ?_, fun a ha => ?_⟩
    · rw [← Rx.apply_data s.rx ((Frame.inRange_data16 addr v).mpr haddr) (by simp)]
      exact exec_wire s rfl
    · rw [Rx.read_apply_data16 hm haddr, if_pos (by omega), Nat.add_sub_cancel_left]; rfl
    · rw [Rx.read_apply_data16 hm haddr, if_neg (by omega)]

/-- Settles O31: a wire instruction delivers its frame and does nothing else. -/
theorem wireFramesLeaveTheBlockUnchanged : Obligations.WireFramesLeaveTheBlockUnchanged := by
  refine ⟨fun i f s t hf ht => ?_, fun addr v s h => ?_⟩
  · rw [exec_wire s hf] at ht
    obtain rfl := Host.Outcome.next.inj ht
    exact ⟨rfl, Rx.apply_buf _ _, Rx.apply_prevCsN _ _, Rx.apply_prevSclk _ _⟩
  · rw [exec_wire s rfl, Rx.apply_data16_of_passesEnd _ (by omega)]
    rfl

/-- Settles O32: on a sequence that is no frame the receiver forgets. -/
theorem malformedFramesForgetEverything : Obligations.MalformedFramesForgetEverything := by
  intro bits e s h
  refine ⟨s.rx.forget, ?_, fun _ => rfl, rfl, rfl, rfl, rfl, rfl, rfl⟩
  rw [interpret_eq, Rx.interpreted_of_error _ h]

/-- Settles O33, by induction on both lists of cells: heads at one address, then tails that read alike. -/
theorem memoriesThatReadAlikeAreEqual : Obligations.MemoriesThatReadAlikeAreEqual :=
  fun _ _ => Memory.eq_of_read_eq

/-- Settles O34: a command repeats itself field by field, and a data frame leaves a canonical memory that reads as it
did after the first. -/
theorem framesAreIdempotent : Obligations.FramesAreIdempotent := by
  intro f rx hm hin _
  cases f with
  | cmd code => exact rx.command_command code
  | data4 addr v => exact Rx.apply_apply_data hm hin (by simp)
  | data16 addr v => exact Rx.apply_apply_data hm hin (by simp)

/-- Settles O41: the receiver has forgotten before the cycle's end, which brings nothing back. -/
theorem cutFrameMakesTheReceiverForget : Obligations.CutFrameMakesTheReceiverForget := by
  intro s hrst hcs
  refine ⟨_, step_eq s, ?_⟩
  rw [stepNext_eq_endCycle, State.looked_of_cut hrst hcs]
  obtain ⟨hmem, hsys, hlcd, hrefused⟩ := endCycle_rx_of_forgotten (s := s.resetBlock.setRx s.rx.forget) rfl rfl rfl
  exact ⟨fun a => by rw [hmem]; rfl, hsys, hlcd, hrefused, rfl, rfl, rfl, rfl⟩

/-- Settles O42: with and without the power loss, the cycle is the same until its end. -/
theorem powerLossClearsTheReceiver : Obligations.PowerLossClearsTheReceiver := by
  intro s hloss
  have hrx : (stepNext s).rx = s.looked.rx.losePower :=
    endCycle_rx_of_powerLoss (s := s.looked) (s.looked_input ▸ hloss)
  have htail : s.withPower.inputs.tail = s.looked.inputs.tail := by rw [s.looked_inputs]; rfl
  refine ⟨_, step_eq s, ?_, fun h => ?_, _, step_eq s.withPower, ?_, ?_⟩
  · rw [hrx]; rfl
  · rw [hrx]; exact State.refused_looked h
  · rw [stepNext_withPower]; exact endCycle_eq_setRx htail
  · rw [hrx, stepNext_withPower, endCycle_rx_of_powered rfl]; rfl

/-- Settles O45: the receiver's bits are those of the frame, and the cycle delivers it. -/
theorem stepRunsTheReceivedFrame : Obligations.StepRunsTheReceivedFrame := by
  intro s t i hphase htimer hnbits _ hrst hprev _ hbuf hexec
  obtain ⟨f, -, rfl⟩ := decodeFrame_ok hbuf
  have hblock : blockNext s = highEdge s := by simp [blockNext, hrst, hphase]
  have hend : (blockNext s).csN = true := by simp [hblock, highEdge, htimer, hnbits]
  have hcut : s.cutsFrame = false := by simp [State.cutsFrame, hrst]
  have hrx : (highEdge s).rx = s.rx := hblock ▸ blockNext_rx s
  rw [exec_wire (highEdge s) (wireFrame_instrOfFrame f), hrx] at hexec
  rw [step_eq, stepNext_eq_endCycle, State.looked_of_frameEnd hcut hprev hend hbuf, hblock, Host.Outcome.next.inj hexec]

end Sys2Proof.Machine
end

section
/-! SUPPORT and PROOF. Encoding: where the fields of a request word stand (R81, R82), its unused bits (R83), that the
decoder undoes the encoder, the assembler (R91, R92), the frames bit by bit (R87, R88), and what the reserved words and
the pseudo-instructions do at the port (R84, R85, R92, R93). Settles O2 to O5, O7, O8 and O21 to O23. -/

namespace Sys2Proof

/-! ### Fields of a word (R8, R81) -/

@[simp] theorem field_getElem {n : Nat} (lo : Nat) (v : BitVec n) (i : Nat) (hi : i < 32) :
    (field lo v)[i] = (decide (lo ≤ i) && v.getLsbD (i - lo)) := by
  simp only [field, BitVec.getElem_shiftLeft, BitVec.getElem_setWidth]
  by_cases h : lo ≤ i
  · simp [h, Nat.not_lt.mpr h]
  · simp [h, Nat.lt_of_not_le h]

/-- A field is read back where it was put. -/
@[simp] theorem extractLsb'_field_same {n : Nat} (lo : Nat) (v : BitVec n) (h : lo + n ≤ 32) :
    (field lo v).extractLsb' lo n = v := by
  apply BitVec.eq_of_getLsbD_eq
  intro i hi
  rw [BitVec.getLsbD_extractLsb', BitVec.getLsbD_eq_getElem (by omega), field_getElem]
  simp [hi]

/-- A field leaves zeros at every other field of the word. -/
@[simp] theorem extractLsb'_field_other {n : Nat} (lo : Nat) (v : BitVec n) (lo' n' : Nat) (hin : lo' + n' ≤ 32)
    (hapart : lo + n ≤ lo' ∨ lo' + n' ≤ lo) : (field lo v).extractLsb' lo' n' = 0#n' := by
  apply BitVec.eq_of_getLsbD_eq
  intro i hi
  rw [BitVec.getLsbD_extractLsb', BitVec.getLsbD_eq_getElem (by omega), field_getElem, BitVec.getLsbD_zero]
  rcases hapart with h | h
  · simp [BitVec.getLsbD_of_ge v (lo' + i - lo) (by omega)]
  · simp [show ¬ lo ≤ lo' + i by omega]

/-- Words that agree under a mask have the same field wherever the mask covers it. -/
theorem extractLsb'_eq_of_and_eq {w w' m : Word} (h : w' &&& m = w &&& m) (lo n : Nat)
    (hm : m.extractLsb' lo n = BitVec.allOnes n) : w'.extractLsb' lo n = w.extractLsb' lo n := by
  have hfield := congrArg (BitVec.extractLsb' lo n) h
  simpa [BitVec.extractLsb'_and, hm] using hfield

theorem getLsbD_eq_of_and_eq {w w' m : Word} (h : w' &&& m = w &&& m) (i : Nat) (hm : m.getLsbD i = true) :
    w'.getLsbD i = w.getLsbD i := by
  have hbit := congrArg (·.getLsbD i) h
  simpa [hm] using hbit

/-! ### The request decoder, field by field (R81, R82) -/

/-- `OP` by the bits that the decoder matches on. -/
theorem extractLsb'_op (w : Word) : w.extractLsb' 29 3 =
    BitVec.ofBool (w.getLsbD 31) ++ BitVec.ofBool (w.getLsbD 30) ++ BitVec.ofBool (w.getLsbD 29) := by
  apply BitVec.eq_of_getLsbD_eq
  intro i hi
  simp only [BitVec.getLsbD_extractLsb', BitVec.getLsbD_append]
  interval_cases i <;> simp

/-- `WSEL` by the bits that the decoder matches on. -/
theorem extractLsb'_wsel (w : Word) : w.extractLsb' 22 2 =
    BitVec.ofBool (w.getLsbD 23) ++ BitVec.ofBool (w.getLsbD 22) := by
  apply BitVec.eq_of_getLsbD_eq
  intro i hi
  simp only [BitVec.getLsbD_extractLsb', BitVec.getLsbD_append]
  interval_cases i <;> simp

/-- Settles O4: the bits that the decoder matches on are those of `OP` and `WSEL`. Later proofs read the decoder
through this table. -/
theorem requestFieldsStandWhereTheTableSays : Obligations.RequestFieldsStandWhereTheTableSays := by
  intro w
  rw [extractLsb'_op, extractLsb'_wsel]
  unfold decodeRequest decodeDataRequest
  cases w.getLsbD 31 <;> cases w.getLsbD 30 <;> cases w.getLsbD 29
  case false.false.true => cases w.getLsbD 23 <;> cases w.getLsbD 22 <;> rfl
  all_goals rfl

/-- Agreement on the used bits is agreement on `OP`, and then on each field that the request's row of R81 lists.
The hypotheses `h0` to `h6` are named after the value of `OP`, and `hw0` to `hw2` after that of `WSEL`. -/
theorem decodeRequest_eq_of_and_usedBits_eq {w w' : Word}
    (h : w' &&& (decodeRequest w).usedBits = w &&& (decodeRequest w).usedBits) :
    decodeRequest w' = decodeRequest w := by
  have hw := requestFieldsStandWhereTheTableSays w
  have hw' := requestFieldsStandWhereTheTableSays w'
  split_ifs at hw with h0 h1 hw0 hw1 hw2 h2 h3 h4 h5 h6
  all_goals
    rw [hw] at h ⊢
    simp only [Instr.usedBits] at h
    have hfield := extractLsb'_eq_of_and_eq h
    have hbit := getLsbD_eq_of_and_eq h
    rw [hfield 29 3 rfl] at hw'
    rw [hw']
  · simp only [h0, hfield 0 8 rfl]; rfl
  · simp only [h1, hw0, hfield 22 2 rfl, hfield 16 6 rfl, hfield 0 4 rfl]; rfl
  · simp only [h1, hw1, hfield 22 2 rfl]; rfl
  · simp only [h1, hw2, hfield 22 2 rfl]; rfl
  · simp only [h1, hw0, hw1, hw2, hfield 22 2 rfl, hfield 16 6 rfl, hfield 0 16 rfl]; rfl
  · simp only [h2, hfield 16 4 rfl, hfield 0 16 rfl]; rfl
  · simp only [h3, hfield 0 4 rfl, hbit 8 rfl]; rfl
  · simp only [h4]; rfl
  · simp only [h5, hfield 0 4 rfl]; rfl
  · simp only [h6, hbit 8 rfl]; rfl
  · simp only [h0, h1, h2, h3, h4, h5, h6]; rfl

/-! ### Unused bits (R83, R91) -/

/-- A mask that covers a field covers every bit the field can set. -/
theorem field_and_not_eq_zero {n : Nat} (lo : Nat) (v : BitVec n) {m : Word}
    (hm : m.extractLsb' lo n = BitVec.allOnes n) : field lo v &&& ~~~m = 0#32 := by
  apply BitVec.eq_of_getLsbD_eq
  intro i hi
  have hcover (hlo : lo ≤ i) (hv : v.getLsbD (i - lo) = true) : m.getLsbD i = true := by
    have hbit := congrArg (·.getLsbD (i - lo)) hm
    simpa [BitVec.lt_of_getLsbD hv, Nat.add_sub_cancel' hlo] using hbit
  simpa [hi] using hcover

/-- The encoder writes fields that the used bits cover, and nothing else. -/
theorem encode_unusedBits {i : Instr} {w : Word} (h : encode i = .request w) : w &&& ~~~i.usedBits = 0#32 := by
  cases i <;> simp only [encode, Fetched.request.injEq, reduceCtorEq] at h <;> subst h
  all_goals
    simp only [encodeCmd, encodeData, encodeCell, encodeFill, BitVec.and_or_distrib_right, BitVec.or_eq_zero_iff,
      Instr.usedBits]
    and_intros <;> exact field_and_not_eq_zero _ _ rfl

/-! ### Decoding what the encoder wrote (R81, R82, R92) -/

/-- Each field of an encoded word is read back, and the others leave it alone. -/
theorem decodeRequest_of_encode {i : Instr} {w : Word} (h : encode i = .request w) : decodeRequest w = i.core := by
  rw [requestFieldsStandWhereTheTableSays w]
  cases i <;> simp only [encode, Fetched.request.injEq, reduceCtorEq] at h <;> subst h
  all_goals simp [encodeCmd, encodeData, encodeCell, encodeFill, BitVec.extractLsb'_or, Instr.core]

namespace Machine

theorem encode_instrOfFrame (f : Frame) : encode (instrOfFrame f) = .wire (frameBits f) := by cases f <;> rfl

@[simp] theorem core_instrOfFrame (f : Frame) : (instrOfFrame f).core = instrOfFrame f := by cases f <;> rfl

/-- An instruction has a request word, and then it is well formed, or it is a frame, well formed inside the memory. -/
theorem encode_request_or_frame (i : Instr) :
    (∃ w, encode i = .request w ∧ i.wellFormed = true) ∨ ∃ f, i = instrOfFrame f ∧ i.wellFormed = f.inRange := by
  cases i
  case frameCmd code => exact .inr ⟨.cmd code, rfl, rfl⟩
  case frameData4 addr value => exact .inr ⟨.data4 addr value, rfl, rfl⟩
  case frameData16 addr value => exact .inr ⟨.data16 addr value, rfl, rfl⟩
  all_goals exact .inl ⟨_, rfl, rfl⟩

/-- Settles O2: a request's word is read field by field, a frame's bits by the wire decoder. -/
theorem decodeUndoesEncode : Obligations.DecodeUndoesEncode := by
  intro i hwf
  rcases encode_request_or_frame i with ⟨w, hw, -⟩ | ⟨f, rfl, hin⟩
  · rw [hw, decode, decodeRequest_of_encode hw]
  · rw [encode_instrOfFrame, core_instrOfFrame]
    exact decodeFrame_frameBits (hin ▸ hwf)

/-- Settles O3: the decoder reads used bits only, and the expansion depends on the decoded request. -/
theorem unusedBitsAreIgnored : Obligations.UnusedBitsAreIgnored := by
  refine ⟨fun w w' h => ?_, fun i w => encode_unusedBits⟩
  have hdecode := decodeRequest_eq_of_and_usedBits_eq h
  exact ⟨hdecode, fun c => by rw [hdecode]⟩

/-! ### The assembler (R91, R92) -/

theorem fits_map {α : Type} (n v : Nat) (f : BitVec n → α) :
    (fits n v).map f = if v < 2 ^ n then some (f (BitVec.ofNat n v)) else none := by
  unfold fits
  split <;> rfl

theorem fitsBoth_map {α : Type} (m n a b : Nat) (f : BitVec m × BitVec n → α) : (fitsBoth m n a b).map f =
    if a < 2 ^ m ∧ b < 2 ^ n then some (f (BitVec.ofNat m a, BitVec.ofNat n b)) else none := by
  unfold fitsBoth fits
  by_cases ha : a < 2 ^ m <;> by_cases hb : b < 2 ^ n <;> simp [ha, hb]

/-- A mnemonic with one number operand refuses every other list of operands. -/
theorem assembleOperands_one_none {m : Mnemonic} (hm : m ∈ [Mnemonic.cmd, .setpt]) {ops : List Operand}
    (h : ∀ n, ops ≠ [.num n]) : assembleOperands m ops = none := by
  rcases ops with _ | ⟨n | _ | _, _ | _⟩
  case cons.num.nil => exact absurd rfl (h n)
  all_goals fin_cases hm <;> rfl

/-- A mnemonic with two number operands refuses every other list of operands. -/
theorem assembleOperands_two_none {m : Mnemonic} (hm : m ∈ [Mnemonic.data4, .data16, .cell, .draw]) {ops : List Operand}
    (h : ∀ a v, ops ≠ [.num a, .num v]) : assembleOperands m ops = none := by
  rcases ops with _ | ⟨a | _ | _, _ | ⟨v | _ | _, _ | _⟩⟩
  case cons.num.cons.num.nil => exact absurd rfl (h a v)
  all_goals fin_cases hm <;> rfl

theorem assembleOperands_point_none {ops : List Operand}
    (h : ∀ i, ops ≠ [.num i] ∧ ops ≠ [.num i, .on] ∧ ops ≠ [.num i, .off]) : assembleOperands .point ops = none := by
  simp only [forall_and] at h
  obtain ⟨hbare, hon, hoff⟩ := h
  rcases ops with _ | ⟨i | _ | _, _ | ⟨_ | _ | _, _ | _⟩⟩
  case cons.num.nil => exact absurd rfl (hbare i)
  case cons.num.cons.on.nil => exact absurd rfl (hon i)
  case cons.num.cons.off.nil => exact absurd rfl (hoff i)
  all_goals rfl

/-- The assembler writes the word of the line's request. -/
theorem assemble_eq_some {line : List Char} {w : Word} (h : assemble line = some w) :
    ∃ i, assembleLine line = some i ∧ encode i = .request w := by
  unfold assemble at h
  cases hi : assembleLine line with
  | none => simp [hi] at h
  | some i =>
    refine ⟨i, rfl, ?_⟩
    cases he : encode i with
    | request v => simpa [hi, he] using h
    | wire bits => simp [hi, he] at h

theorem wellFormed_of_encode_request {i : Instr} {w : Word} (h : encode i = .request w) : i.wellFormed = true := by
  rcases encode_request_or_frame i with ⟨_, _, hwf⟩ | ⟨f, rfl, _⟩
  · exact hwf
  · rw [encode_instrOfFrame] at h; cases h

/-- Settles O7, clause by clause over the shapes of an operand list; the last clause is about the encoder. -/
theorem assemblerChecksEveryField : Obligations.AssemblerChecksEveryField := by
  refine ⟨fun c => fits_map 8 c _, fun a v => fitsBoth_map 6 4 a v _, fun a v => fitsBoth_map 6 16 a v _,
    fun p v => fitsBoth_map 4 16 p v _, fun _ => rfl, fun i => fits_map 4 i _, fun i => fits_map 4 i _,
    fun i => fits_map 4 i _, fun p v => fitsBoth_map 4 16 p v _, fun ops => ?_, fun p hp ops => ?_,
    fun _ hm _ => assembleOperands_one_none hm, fun _ hm _ => assembleOperands_two_none hm,
    fun _ => assembleOperands_point_none, fun line w h => ?_⟩
  · rcases ops with _ | ⟨_ | _ | _, _ | _⟩ <;> rfl
  · fin_cases hp <;> cases ops <;> rfl
  · obtain ⟨i, hline, hencode⟩ := assemble_eq_some h
    exact ⟨i, hline, wellFormed_of_encode_request hencode, encode_unusedBits hencode, decodeRequest_of_encode hencode⟩

/-! ### Frames in wire order (R87, R88) -/

/-- A field between two other parts of a bit sequence, most significant bit first (R9). -/
theorem getElem?_append_bitsMSB {n : Nat} (pre post : List Bool) (v : BitVec n) {j : Nat} (hj : j < n) :
    (pre ++ bitsMSB v ++ post)[pre.length + j]? = some (v.getMsbD j) := by
  rw [List.append_assoc, List.getElem?_append_right (Nat.le_add_right _ _), Nat.add_sub_cancel_left,
    List.getElem?_append_left (by simpa using hj), bitsMSB_getElem?, if_pos hj]

/-- The value of a data frame, of either width, stands behind the three leading bits and the address. -/
theorem getElem?_dataBits {n : Nat} (addr : Addr) (v : BitVec n) {j : Nat} (hj : j < n) :
    ([true, false, true] ++ bitsMSB addr ++ bitsMSB v)[9 + j]? = some (v.getMsbD j) := by
  simpa using getElem?_append_bitsMSB ([true, false, true] ++ bitsMSB addr) [] v hj

/-- Settles O8, field by field. -/
theorem frameFieldsInWireOrder : Obligations.FrameFieldsInWireOrder := by
  refine ⟨fun code => ⟨frameBits_cmd_length code, rfl, fun j hj => ?_, rfl⟩,
    fun addr v => ⟨frameBits_data4_length addr v, rfl, fun j hj => ?_, fun j hj => getElem?_dataBits addr v hj⟩,
    fun addr v => ⟨frameBits_data16_length addr v, rfl, fun j hj => ?_, fun j hj => getElem?_dataBits addr v hj⟩⟩
  · exact getElem?_append_bitsMSB [true, false, false] [padBit] code hj
  · exact getElem?_append_bitsMSB [true, false, true] (bitsMSB v) addr hj
  · exact getElem?_append_bitsMSB [true, false, true] (bitsMSB v) addr hj

/-! ### Requests at the port (R84, R85, R92, R93) -/

/-- Settles O21: the table of R81 decodes the words, and a ready port records an error's cause. -/
theorem reservedWordsRecordTheirCause : Obligations.ReservedWordsRecordTheirCause := by
  refine ⟨fun w hop => ?_, fun w hop hwsel => ?_, fun w hop hwsel => ?_, fun c => ⟨rfl, rfl, rfl⟩, fun s hready =>
    ⟨offer_error hready _, offer_error hready _, offer_error hready _⟩⟩
  · rw [requestFieldsStandWhereTheTableSays w, hop]; rfl
  · rw [requestFieldsStandWhereTheTableSays w, hop, hwsel]; rfl
  · rw [requestFieldsStandWhereTheTableSays w, hop, hwsel]; rfl

theorem expandCell_of_lt {pos : BitVec 4} (h : pos.toNat < 10) (pattern : Pattern) :
    expandCell pos pattern = .ok [.data16 (BitVec.ofNat 6 (0x24 - 4 * pos.toNat)) pattern] := by
  rw [expandCell, cellAddr?_of_lt h]

theorem expandCell_of_le {pos : BitVec 4} (h : 10 ≤ pos.toNat) (pattern : Pattern) :
    expandCell pos pattern = .err .badCell := by
  rw [expandCell, cellAddr?_of_le h]

/-- One command frame and none to follow (R142). -/
theorem offer_expandCmd {s : State} (h : s.reqReady = true) (code : Code) :
    offer (expandCmd code) s = .next (s.sending 12 (cmdBits code) []) := by
  rw [expandCmd, offer_frames h, State.start_cmd]

/-- The frame of the cell at address 0, and those of the other nine to follow, in ascending order (R192). -/
theorem offer_expandFill {s : State} (h : s.reqReady = true) (on : Bool) : offer (expandFill on) s =
    .next (s.sending 25 (data16Bits 0x00#6 (if on then 0xFFFF#16 else 0x0000#16))
      (cellAddrTable.reverse.tail.map fun a => .data16 a (if on then 0xFFFF#16 else 0x0000#16))) := by
  rw [← State.start_data16]
  exact offer_frames h _ _

/-- One cell's frame, or the error of a position outside the cell table (R169). -/
theorem offer_expandCell {s : State} (h : s.reqReady = true) (pos : BitVec 4) (pattern : Pattern) :
    offer (expandCell pos pattern) s =
      .next (if pos.toNat < 10 then s.sending 25 (data16Bits (BitVec.ofNat 6 (0x24 - 4 * pos.toNat)) pattern) []
        else if s.err then s else s.failed .badCell) := by
  by_cases hpos : pos.toNat < 10
  · rw [if_pos hpos, expandCell_of_lt hpos, offer_frames h, State.start_data16]
  · rw [if_neg hpos, expandCell_of_le (Nat.le_of_not_lt hpos), offer_error h]

/-- Settles O22: a named command is a command with its code. -/
theorem namedCommandsSendTheirFrames : Obligations.NamedCommandsSendTheirFrames :=
  ⟨rfl, rfl, rfl, rfl, fun _ hready =>
    ⟨offer_expandCmd hready 0x00#8, offer_expandCmd hready 0x01#8, offer_expandCmd hready 0x02#8,
      offer_expandCmd hready 0x03#8⟩⟩

/-- Settles O23: `CLEAR` and `LAMPTEST` are `FILL`, and `DRAW` is `CELL`. -/
theorem clearLamptestAndDrawSendTheirFrames : Obligations.ClearLamptestAndDrawSendTheirFrames :=
  fun _ hready => ⟨offer_expandFill hready false, offer_expandFill hready true, offer_expandCell hready⟩

/-- Settles O5: the words, the meanings and the calls are those of the expansion by definition. -/
theorem pseudoInstructionsAreTheirExpansions : Obligations.PseudoInstructionsAreTheirExpansions :=
  ⟨rfl, rfl, rfl, rfl, rfl, rfl, fun _ _ => rfl, fun _ => ⟨rfl, rfl, rfl, rfl, rfl, rfl, fun _ _ => rfl⟩, rfl, rfl, rfl,
    rfl, rfl, rfl, fun _ _ => rfl⟩

end Machine

end Sys2Proof
end

section
/-! SUPPORT and PROOF. The block's edge, said once for each phase and once as the list of the moves it can make
(R112 to R119), and the fields of the machine after a cycle. Settles O9, O25, O44 and O46 to O50. -/

namespace Sys2Proof.Machine

/-! ### A frame in the shift register (R119) -/

theorem frameBits_length_cases (f : Frame) :
    (frameBits f).length = 12 ∨ (frameBits f).length = 13 ∨ (frameBits f).length = 25 := by
  cases f <;> simp

theorem frameBits_length_le (f : Frame) : (frameBits f).length ≤ 25 := by
  have := frameBits_length_cases f
  omega

/-- The value of a sequence whose first bit stands just below weight `2 ^ m`, bit by bit. -/
theorem toNat_ofBoolListBE_mul (bits : List Bool) (m : Nat) (h : bits.length ≤ m) :
    (BitVec.ofBoolListBE bits).toNat * 2 ^ (m - bits.length) =
      ((List.range bits.length).map fun i => (bits.getD i false).toNat * 2 ^ (m - 1 - i)).sum := by
  induction bits generalizing m with
  | nil => simp [BitVec.ofBoolListBE]
  | cons b bits ih =>
    obtain ⟨m, rfl⟩ : ∃ n, m = n + 1 := ⟨m - 1, by simp at h; omega⟩
    have hlen : bits.length ≤ m := by simpa using h
    have hhead : b.toNat * 2 ^ bits.length * 2 ^ (m - bits.length) = b.toNat * 2 ^ m := by
      rw [mul_assoc, ← pow_add, Nat.add_sub_cancel' hlen]
    rw [BitVec.ofBoolListBE, BitVec.toNat_cons', Nat.shiftLeft_eq, List.length_cons, Nat.add_sub_add_right, add_mul,
      hhead, ih m hlen, List.range_succ_eq_map]
    simp [Function.comp_def, Nat.sub_sub, Nat.add_comm 1]

theorem leftAlign_toNat (bits : List Bool) (h : bits.length ≤ 25) : (leftAlign bits).toNat =
    ((List.range bits.length).map fun i => (bits.getD i false).toNat <<< (24 - i)).sum := by
  have hlt : (BitVec.ofBoolListBE bits).toNat * 2 ^ (25 - bits.length) < 2 ^ 25 := by
    conv_rhs => rw [← Nat.add_sub_cancel' h, pow_add]
    exact Nat.mul_lt_mul_of_pos_right (BitVec.ofBoolListBE bits).isLt (Nat.two_pow_pos _)
  simp only [Nat.shiftLeft_eq, ← toNat_ofBoolListBE_mul bits 25 h, leftAlign, readMSB, BitVec.toNat_shiftLeft,
    BitVec.toNat_setWidth_of_le h, Nat.mod_eq_of_lt hlt]

theorem leftAlign_getLsbD_low (bits : List Bool) {i : Nat} (hi : i < 25 - bits.length) :
    (leftAlign bits).getLsbD i = false := by
  rw [leftAlign, BitVec.getLsbD_shiftLeft]
  simp [hi]

/-- Settles O9: the left-aligned register, read as a number and bit by bit. -/
theorem loadLeftAlignsTheFrame : Obligations.LoadLeftAlignsTheFrame := by
  intro s f
  have hle := frameBits_length_le f
  refine ⟨leftAlign_toNat _ hle, rfl, frameBits_length_cases f, ?_, fun i => leftAlign_getLsbD_low _, rfl⟩
  change (leftAlign (frameBits f)).getMsbD 0 = _
  rw [leftAlign_getMsbD _ hle]
  cases f <;> rfl

/-! ### The edge of each phase (R112) -/

section
variable {s : State}

theorem blockNext_idle_offered (hp : s.phase = .idle) (hr : s.input.rst = false) (hv : s.input.reqValid = true) :
    blockNext s = s.accept (wordExpansion s.cfg s.input.reqWord) := by
  simp [blockNext, hr, hp, hv]

theorem blockNext_idle_quiet (hp : s.phase = .idle) (hr : s.input.rst = false) (hv : s.input.reqValid = false) :
    blockNext s = s := by
  simp [blockNext, hr, hp, hv]

theorem blockNext_setup (hp : s.phase = .setup) (hr : s.input.rst = false) : blockNext s = setupEdge s := by
  simp [blockNext, hr, hp]

theorem blockNext_low (hp : s.phase = .low) (hr : s.input.rst = false) : blockNext s = lowEdge s := by
  simp [blockNext, hr, hp]

theorem blockNext_high (hp : s.phase = .high) (hr : s.input.rst = false) : blockNext s = highEdge s := by
  simp [blockNext, hr, hp]

theorem blockNext_gap (hp : s.phase = .gap) (hr : s.input.rst = false) : blockNext s = gapEdge s := by
  simp [blockNext, hr, hp]

end

/-- The data line after an edge of `LOW`: the register's top bit one cycle after the clock fell (R116). -/
def State.driven (s : State) : Bool := if s.timer = s.cfg.np - 1 then s.shreg.getLsbD 24 else s.sdata

/-- What the block can do at one edge (R112 to R118, R250). -/
inductive BlockMove (s : State) : State → Prop
  | reset (rst : s.input.rst = true) : BlockMove s s.resetBlock
  | stay (phase : s.phase = .idle) : BlockMove s s
  | fail (phase : s.phase = .idle) (c : Cause) (cause : c ≠ .none) (err : s.err = false) : BlockMove s (s.failed c)
  | accept (phase : s.phase = .idle) (f : Frame) (fs : List Frame) (bounded : (Expansion.ok (f :: fs)).Bounded s.cfg) :
      BlockMove s (s.start f fs)
  | wait (notIdle : s.phase ≠ .idle) (notLow : s.phase ≠ .low) (timer : s.timer ≠ 0) :
      BlockMove s { s with timer := s.timer - 1 }
  | fall (phase : s.phase = .setup) (timer : s.timer = 0) :
      BlockMove s { s with phase := .low, sclk := false, timer := s.cfg.np - 1 }
  | drive (phase : s.phase = .low) (timer : s.timer ≠ 0) :
      BlockMove s { s with sdata := s.driven, timer := s.timer - 1 }
  | rise (phase : s.phase = .low) (timer : s.timer = 0) :
      BlockMove s { s with sdata := s.driven, phase := .high, sclk := true, timer := s.cfg.np - 1 }
  | nextBit (phase : s.phase = .high) (timer : s.timer = 0) (nbits : s.nbits ≠ 1) :
      BlockMove s { s with shreg := s.shreg <<< 1, nbits := s.nbits - 1, phase := .low, sclk := false,
                           timer := s.cfg.np - 1 }
  | endFrame (phase : s.phase = .high) (timer : s.timer = 0) (nbits : s.nbits = 1) :
      BlockMove s { s with shreg := s.shreg <<< 1, nbits := s.nbits - 1, csN := true, phase := .gap,
                           timer := s.cfg.ng - 1 }
  | nextFrame (phase : s.phase = .gap) (timer : s.timer = 0) (f : Frame) (fs : List Frame) (pend : s.pend = f :: fs) :
      BlockMove s (s.start f fs)
  | finish (phase : s.phase = .gap) (timer : s.timer = 0) (pend : s.pend = []) : BlockMove s { s with phase := .idle }

/-- An expansion that fails names its cause (R223). -/
theorem expand_ne_err_none (c : Config) (i : Instr) : expand c i ≠ some (.err .none) := by
  intro h
  cases i <;> simp only [expand, Option.some.injEq, reduceCtorEq] at h
  case cmd | fill | rstpts | sysdis | sysen | lcdoff | lcdon | clear | lamptest => cases h
  case dataw01 | dataw10 | reserved => cases h
  case data4 => unfold expandData4 at h; split at h <;> cases h
  case data16 => unfold expandData16 at h; split at h <;> cases h
  case cell | draw => unfold expandCell at h; split at h <;> cases h
  case point => simp [expandPoint, ite_eq_iff] at h
  case setpt index =>
    by_cases hi : index.toNat < c.pointCount
    · rw [expandSetpt_ok hi] at h; cases h
    · simp [expandSetpt, hi, ite_eq_iff] at h

/-- What the accepting edge does with a word's expansion (R113). -/
theorem BlockMove.of_accept {s : State} (hp : s.phase = .idle) (w : Word) :
    BlockMove s (s.accept (wordExpansion s.cfg w)) := by
  obtain ⟨e, he⟩ := expand_decodeRequest s.cfg w
  rw [wordExpansion, he, Option.getD_some]
  rcases s.accept_cases e with ⟨c, rfl, h⟩ | ⟨rfl, h⟩ | ⟨f, fs, rfl, h⟩ <;> rw [h]
  · rcases s.recordError_cases c with ⟨-, h⟩ | ⟨herr, h⟩ <;> rw [h]
    · exact .stay hp
    · exact .fail hp c (fun hc => expand_ne_err_none _ _ (hc ▸ he)) herr
  · exact .stay hp
  · exact .accept hp f fs (expand_bounded s.cfg he)

/-- Everything the block can do at one edge. -/
theorem blockNext_move (s : State) : BlockMove s (blockNext s) := by
  cases hr : s.input.rst with
  | true => rw [blockNext_of_rst hr]; exact .reset hr
  | false =>
    cases hp : s.phase with
    | idle =>
      cases hv : s.input.reqValid with
      | true => rw [blockNext_idle_offered hp hr hv]; exact .of_accept hp _
      | false => rw [blockNext_idle_quiet hp hr hv]; exact .stay hp
    | setup =>
      rw [blockNext_setup hp hr, setupEdge]
      split
      next ht => exact .fall hp ht
      next ht => exact .wait (by simp [hp]) (by simp [hp]) ht
    | low =>
      rw [blockNext_low hp hr, lowEdge]
      split
      next ht => exact .rise hp ht
      next ht => exact .drive hp ht
    | high =>
      rw [blockNext_high hp hr, highEdge]
      split
      next ht =>
        dsimp only
        split
        next hn => exact .endFrame hp ht hn
        next hn => exact .nextBit hp ht hn
      next ht => exact .wait (by simp [hp]) (by simp [hp]) ht
    | gap =>
      rw [blockNext_gap hp hr, gapEdge]
      split
      next ht =>
        split
        next f fs hq => exact .nextFrame hp ht f fs hq
        next hq => exact .finish hp ht hq
      next ht => exact .wait (by simp [hp]) (by simp [hp]) ht

/-! ### The machine after a cycle -/

section
variable (s : State)

@[simp] theorem stepNext_cfg : (stepNext s).cfg = s.cfg := blockNext_cfg s
@[simp] theorem stepNext_phase : (stepNext s).phase = (blockNext s).phase := rfl
@[simp] theorem stepNext_timer : (stepNext s).timer = (blockNext s).timer := rfl
@[simp] theorem stepNext_shreg : (stepNext s).shreg = (blockNext s).shreg := rfl
@[simp] theorem stepNext_nbits : (stepNext s).nbits = (blockNext s).nbits := rfl
@[simp] theorem stepNext_pend : (stepNext s).pend = (blockNext s).pend := rfl
@[simp] theorem stepNext_csN : (stepNext s).csN = (blockNext s).csN := rfl
@[simp] theorem stepNext_sclk : (stepNext s).sclk = (blockNext s).sclk := rfl
@[simp] theorem stepNext_sdata : (stepNext s).sdata = (blockNext s).sdata := rfl
@[simp] theorem stepNext_err : (stepNext s).err = (blockNext s).err := rfl
@[simp] theorem stepNext_cause : (stepNext s).cause = (blockNext s).cause := rfl
@[simp] theorem stepNext_inputs : (stepNext s).inputs = s.inputs.tail := by simp [stepNext]

end

/-! ### The obligations -/

/-- Settles O25: what accepting an expansion can do, error by error and frame by frame. -/
theorem requestsLeaveTheRestUnchanged : Obligations.RequestsLeaveTheRestUnchanged := by
  intro i e s t he ht
  rw [exec_request s rfl he] at ht
  obtain rfl := Host.Outcome.next.inj ht
  unfold State.offered
  split
  · refine ⟨s.accept_rx e, fun a => by rw [s.accept_rx], s.accept_cfg e, s.accept_inputs e, ?_⟩
    rcases s.accept_cases e with ⟨c, rfl, h⟩ | ⟨rfl, h⟩ | ⟨f, fs, rfl, h⟩ <;> rw [h]
    · rcases s.recordError_cases c with ⟨-, h⟩ | ⟨-, h⟩ <;> rw [h] <;> simp
    · simp
    · simp [Expansion.frames]
  · simp

/-- Settles O44: the step's block is `exec` of the decoded word, and a receiver that remembers chip-select deasserted
has no frame to end. -/
theorem stepRunsTheOfferedRequest : Obligations.StepRunsTheOfferedRequest := by
  refine ⟨fun s t hp hr hv hprev ht => ?_, fun s hp hr hv => ⟨_, step_eq s, ?_⟩⟩
  · obtain ⟨e, he⟩ := expand_decodeRequest s.cfg s.input.reqWord
    rw [exec_request s rfl he, State.offered, if_pos (s.reqReady_iff.mpr ⟨hp, hr⟩)] at ht
    obtain rfl := Host.Outcome.next.inj ht
    have hcut : s.cutsFrame = false := by simp [State.cutsFrame, hr]
    have hblock : blockNext s = s.accept e := by simp [blockNext_idle_offered hp hr hv, wordExpansion, he]
    simp [step_eq, stepNext, hblock, hcut, Rx.received, Rx.frameEnds, hprev]
  · conv_lhs => rw [stepNext_block, blockNext_idle_quiet hp hr hv]

/-- Settles O46: the two cases of the setup phase's edge. -/
theorem setupEdgeDropsTheClockInTime : Obligations.SetupEdgeDropsTheClockInTime := by
  intro s hp hr
  refine ⟨_, step_eq s, ?_⟩
  conv_lhs => rw [stepNext_block, blockNext_setup hp hr, setupEdge]
  split <;> rfl

/-- Settles O47: the two cases of the low phase's edge. -/
theorem lowEdgeSetsDataThenRaisesTheClock : Obligations.LowEdgeSetsDataThenRaisesTheClock := by
  intro s hp hr
  have hblock : blockNext s = lowEdge s := blockNext_low hp hr
  have hdata : (stepNext s).sdata = s.driven := by
    rw [stepNext_sdata, hblock, lowEdge]
    split <;> rfl
  refine ⟨_, step_eq s, hdata, ?_, ?_⟩
  · rw [hdata]
    conv_lhs => rw [stepNext_block, hblock, lowEdge]
    split <;> rfl
  · have := two_le_np s.cfg
    omega

/-- Settles O48: the cases of the high phase's edge, and where each bit of the register goes. -/
theorem highEdgeShiftsOrEndsTheFrame : Obligations.HighEdgeShiftsOrEndsTheFrame := by
  intro s hp hr
  have hblock : blockNext s = highEdge s := blockNext_high hp hr
  refine ⟨_, step_eq s, fun ht => ?_, fun ht => ?_⟩
  · conv_lhs => rw [stepNext_block, hblock, highEdge, if_neg (by omega)]
  · have hshreg : (stepNext s).shreg = s.shreg <<< 1 := by
      rw [stepNext_shreg, hblock, highEdge, if_pos ht]
      dsimp only
      split <;> rfl
    refine ⟨fun i hi => ?_, ?_, ?_⟩
    · rw [hshreg, BitVec.getLsbD_shiftLeft]
      simp [show i + 1 < 25 by omega]
    · rw [hshreg, BitVec.getLsbD_shiftLeft]
      simp
    · rw [hshreg]
      conv_lhs => rw [stepNext_block, hblock, highEdge, if_pos ht]
      dsimp only
      split
      next hn => simp [hn]
      · rfl

/-- Settles O49: the cases of the gap's edge. -/
theorem gapEdgeStartsTheNextFrameOrGoesIdle : Obligations.GapEdgeStartsTheNextFrameOrGoesIdle := by
  intro s hp hr
  have hblock : blockNext s = gapEdge s := blockNext_gap hp hr
  refine ⟨_, step_eq s, fun ht => ?_, fun ht hq => ?_, fun f fs ht hq => ?_⟩
  · conv_lhs => rw [stepNext_block, hblock, gapEdge, if_neg (by omega)]
  · conv_lhs => rw [stepNext_block, hblock, gapEdge, if_pos ht]
    simp [hq]
  · conv_lhs => rw [stepNext_block, hblock, gapEdge, if_pos ht]
    simp [hq, State.start]

/-- The edge of a block that is not ready reads no input but the reset (R124, R253). -/
theorem blockNext_withInputs_of_not_ready {s : State} (h : s.reqReady = false) {l : List PortIn}
    (hrst : (l.headD PortIn.quiet).rst = s.input.rst) : blockNext (s.withInputs l) = (blockNext s).withInputs l := by
  unfold blockNext
  simp only [State.withInputs_input, hrst, State.withInputs_phase]
  split
  · rfl
  next hr =>
    cases hp : s.phase with
    | idle => simp [State.reqReady, hp, hr] at h
    | setup => exact setupEdge_withInputs s l
    | low => exact lowEdge_withInputs s l
    | high => exact highEdge_withInputs s l
    | gap => exact gapEdge_withInputs s l

/-- Settles O50: the edge does not read the request port, and the cycle's end uses its levels up. -/
theorem requestPortIsIgnoredWhileNotReady : Obligations.RequestPortIsIgnoredWhileNotReady := by
  intro s valid w h
  have hblock : blockNext (s.withRequest valid w) = (blockNext s).withRequest valid w := by
    have := blockNext_withInputs_of_not_ready h (l := (s.withRequest valid w).inputs) rfl
    simpa [State.withRequest, State.withInputs, State.input] using this
  have hcut : (s.withRequest valid w).cutsFrame = s.cutsFrame := rfl
  rw [step_eq, step_eq, stepNext, stepNext, hblock, hcut]
  simp [State.withRequest, State.setRx, endCycle, State.input]

end Sys2Proof.Machine
end

section
/-! SUPPORT and PROOF. The invariant of reachable states (R126): every move of the block keeps it, and so does whatever
the receiver makes of the lines; the serial lines never change together (R122). Settles O53 to O55. -/

namespace Sys2Proof.Machine

/-! ### The receiver's memory stays canonical -/

theorem Rx.wf_interpreted {rx : Rx} (h : rx.mem.wf) (bits : List Bool) : (rx.interpreted bits).mem.wf := by
  cases hd : decodeFrame bits with
  | error e => rw [rx.interpreted_of_error hd]; exact Memory.wf_nil
  | ok i =>
    obtain ⟨f, -, rfl⟩ := decodeFrame_ok hd
    rw [rx.interpreted_of_ok hd]
    exact Rx.wf_apply h f

theorem Rx.wf_received {rx : Rx} (h : rx.mem.wf) (cut csN sclk sdata : Bool) :
    (rx.received cut csN sclk sdata).mem.wf := by
  unfold Rx.received
  split_ifs
  · exact Memory.wf_nil
  · exact Rx.wf_interpreted (rx := rx.sample csN sclk sdata) h _
  · exact h

theorem wf_stepNext_rx {s : State} (h : s.rx.mem.wf) : (stepNext s).rx.mem.wf := by
  have hlooked : s.looked.rx.mem.wf := Rx.wf_received (by rwa [blockNext_rx]) _ _ _ _
  rw [stepNext_eq_endCycle]
  cases hp : s.looked.input.powerLoss with
  | true => rw [endCycle_rx_of_powerLoss hp]; exact Memory.wf_nil
  | false => rw [endCycle_rx_of_powered hp]; exact hlooked

/-! ### The block keeps the invariant -/

/-- The cycles of each phase (R115 to R118); `IDLE` lasts as long as the host wants. -/
def phaseCycles (c : Config) : Phase → Nat
  | .idle => 0
  | .setup => c.ns
  | .low => c.np
  | .high => c.np
  | .gap => c.ng

/-- The bound on the timer is above the value with which each phase begins (R24). -/
theorem phaseCycles_sub_one_lt (c : Config) (ph : Phase) : phaseCycles c ph - 1 < max (max c.np c.ns) c.ng := by
  have := two_le_np c
  cases ph <;> simp only [phaseCycles] <;> omega

section
variable {s t : State}

/-- A frame that is started at idle clock level, with what is to follow it bounded (R114). -/
theorem State.Inv.start (h : s.Inv) (hsclk : s.sclk = true) (f : Frame) {fs : List Frame}
    (hlen : fs.length ≤ max (cellCount - 1) s.cfg.clusterCount) (hin : ∀ g ∈ fs, g.inRange = true) :
    (s.start f fs).Inv where
  idle := by simp
  gap := by simp
  setup _ := ⟨rfl, hsclk, frameBits_length_cases f⟩
  low := by simp
  high := by simp
  timer := phaseCycles_sub_one_lt s.cfg .setup
  shreg := leftAlign_shiftLeft_length _ (frameBits_length_le f)
  pendLength := hlen
  pendInRange := hin
  error := h.error
  memory := h.memory

theorem State.Inv.resetBlock (h : s.Inv) : s.resetBlock.Inv where
  idle := by simp
  gap := by simp
  setup := by simp
  low := by simp
  high := by simp
  timer := phaseCycles_sub_one_lt s.cfg .idle
  shreg := rfl
  pendLength := by simp
  pendInRange := by simp
  error := by simp
  memory := h.memory

theorem shiftLeft_one_shiftLeft_sub (r : ShiftReg) {n : Nat} (h : 1 ≤ n) : r <<< 1 <<< (n - 1) = r <<< n := by
  rw [← BitVec.shiftLeft_add, Nat.add_sub_cancel' h]

/-- Chip-select is deasserted between frames (R126). -/
theorem State.Inv.csN_iff (h : s.Inv) : s.csN = true ↔ s.phase = .idle ∨ s.phase = .gap := by
  cases hp : s.phase with
  | idle => obtain ⟨hcs, -⟩ := h.idle hp; simp [hcs]
  | setup => obtain ⟨hcs, -⟩ := h.setup hp; simp [hcs]
  | low => obtain ⟨hcs, -⟩ := h.low hp; simp [hcs]
  | high => obtain ⟨hcs, -⟩ := h.high hp; simp [hcs]
  | gap => obtain ⟨hcs, -⟩ := h.gap hp; simp [hcs]

/-- The clock is low in `LOW` only (R126). -/
theorem State.Inv.sclk_iff (h : s.Inv) : s.sclk = true ↔ s.phase ≠ .low := by
  cases hp : s.phase with
  | idle => obtain ⟨-, hsclk, -⟩ := h.idle hp; simp [hsclk]
  | setup => obtain ⟨-, hsclk, -⟩ := h.setup hp; simp [hsclk]
  | low => obtain ⟨-, hsclk, -⟩ := h.low hp; simp [hsclk]
  | high => obtain ⟨-, hsclk, -⟩ := h.high hp; simp [hsclk]
  | gap => obtain ⟨-, hsclk, -⟩ := h.gap hp; simp [hsclk]

/-- Every move of the block keeps the invariant. -/
theorem BlockMove.inv (m : BlockMove s t) (h : s.Inv) : t.Inv := by
  cases m with
  | reset => exact h.resetBlock
  | stay => exact h
  | fail hp c hc => exact { h with error := by simp [State.failed, hc] }
  | accept hp f fs hb =>
    obtain ⟨hlen, hin⟩ := hb
    refine h.start (h.sclk_iff.mpr (by simp [hp])) f ?_ fun g hg => hin g (by simp [Expansion.frames, hg])
    simp only [Expansion.frames, List.length_cons] at hlen
    omega
  | wait hidle hlow ht =>
    exact { h with
      idle := fun hp => absurd hp hidle
      timer := lt_of_le_of_lt (Nat.sub_le _ _) h.timer }
  | fall hp ht =>
    obtain ⟨hcs, -, hn⟩ := h.setup hp
    have hbits : 1 ≤ s.nbits ∧ s.nbits ≤ 25 := by omega
    exact { h with
      idle := by simp, gap := by simp, setup := by simp, high := by simp
      low := fun _ => ⟨hcs, rfl, hbits⟩
      timer := phaseCycles_sub_one_lt s.cfg .low }
  | drive hp ht =>
    exact { h with
      idle := by simp [hp]
      timer := lt_of_le_of_lt (Nat.sub_le _ _) h.timer }
  | rise hp ht =>
    obtain ⟨hcs, -, hn⟩ := h.low hp
    exact { h with
      idle := by simp, gap := by simp, setup := by simp, low := by simp
      high := fun _ => ⟨hcs, rfl, hn⟩
      timer := phaseCycles_sub_one_lt s.cfg .high }
  | nextBit hp ht hn =>
    obtain ⟨hcs, -, h1, h25⟩ := h.high hp
    have hbits : 1 ≤ s.nbits - 1 ∧ s.nbits - 1 ≤ 25 := by omega
    exact { h with
      idle := by simp, gap := by simp, setup := by simp, high := by simp
      low := fun _ => ⟨hcs, rfl, hbits⟩
      timer := phaseCycles_sub_one_lt s.cfg .low
      shreg := (shiftLeft_one_shiftLeft_sub _ h1).trans h.shreg }
  | endFrame hp ht hn =>
    obtain ⟨-, hsclk, h1, -⟩ := h.high hp
    have hzero : s.nbits - 1 = 0 := by omega
    exact { h with
      idle := by simp, setup := by simp, low := by simp, high := by simp
      gap := fun _ => ⟨rfl, hsclk, hzero⟩
      timer := phaseCycles_sub_one_lt s.cfg .gap
      shreg := (shiftLeft_one_shiftLeft_sub _ h1).trans h.shreg }
  | nextFrame hp ht f fs hq =>
    have hlen := h.pendLength
    have hin := h.pendInRange
    simp only [hq, List.length_cons, List.mem_cons] at hlen hin
    exact h.start (h.sclk_iff.mpr (by simp [hp])) f (by omega) fun g hg => hin g (.inr hg)
  | finish hp ht hq =>
    obtain ⟨hcs, hsclk, hn⟩ := h.gap hp
    exact { h with
      gap := by simp, setup := by simp, low := by simp, high := by simp
      idle := fun _ => ⟨hcs, hsclk, hn, hq, ht⟩ }

/-- The invariant is about the block and the receiver's memory: a cycle keeps it. -/
theorem State.Inv.stepNext (h : s.Inv) : (stepNext s).Inv := by
  have hblock := (blockNext_move s).inv h
  rw [stepNext_block]
  exact { hblock with memory := wf_stepNext_rx h.memory }

end

theorem State.inv_resetWith (c : Config) : (State.resetWith c).Inv where
  idle := by simp [State.resetWith]
  gap := by simp [State.resetWith]
  setup := by simp [State.resetWith]
  low := by simp [State.resetWith]
  high := by simp [State.resetWith]
  timer := phaseCycles_sub_one_lt c .idle
  shreg := rfl
  pendLength := by simp [State.resetWith]
  pendInRange := by simp [State.resetWith]
  error := by simp [State.resetWith]
  memory := Memory.wf_nil

theorem State.tracked_resetWith (c : Config) : (State.resetWith c).Tracked where
  lines := ⟨rfl, rfl⟩
  data := by simp [State.resetWith]
  frame := by simp [State.resetWith]

/-- Settles O54: every move of the block and every look of the receiver keeps the invariant. -/
theorem everyStepKeepsTheInvariant : Obligations.EveryStepKeepsTheInvariant := by
  intro s t h ht
  rw [step_eq] at ht
  obtain rfl := Host.Outcome.next.inj ht
  exact h.stepNext

/-- Settles O55: the reset state is idle, with every line at its idle level. -/
theorem invariantHoldsAtReset : Obligations.InvariantHoldsAtReset :=
  ⟨State.inv_resetWith _, State.tracked_resetWith _, fun c => ⟨State.inv_resetWith c, State.tracked_resetWith c⟩⟩

/-- The data line changes at the end of the first cycle of `LOW` only (R116). -/
theorem State.timer_of_driven_ne {s : State} (h : s.driven ≠ s.sdata) : s.timer = s.cfg.np - 1 := by
  by_contra ht
  exact h (if_neg ht)

/-- Settles O53, move by move: the data line changes in `drive` alone, since `LOW` has two cycles or more, and
chip-select changes while the clock is high. -/
theorem linesNeverChangeTogether : Obligations.LinesNeverChangeTogether := by
  intro s t h hr ht
  rw [step_eq] at ht
  obtain rfl := Host.Outcome.next.inj ht
  simp only [stepNext_sdata, stepNext_sclk, stepNext_csN]
  have hmove := blockNext_move s
  generalize blockNext s = u at hmove
  cases hmove with
  | reset hrst => simp [hr] at hrst
  | stay | fail | wait | fall | nextBit | finish => simp [State.failed]
  | accept hp | nextFrame hp | endFrame hp => simp [h.sclk_iff, hp]
  | drive hp =>
    have hsclk : s.sclk = false := by simpa [hp] using h.sclk_iff
    exact ⟨fun hd => ⟨hp, State.timer_of_driven_ne hd, hsclk, hsclk, rfl⟩, fun hcs => absurd rfl hcs⟩
  | rise hp ht =>
    have := two_le_np s.cfg
    exact ⟨fun hd => absurd (State.timer_of_driven_ne hd) (by omega), fun hcs => absurd rfl hcs⟩

end Sys2Proof.Machine
end

section
/-! SUPPORT and PROOF. The receiver in step with the block (R62, R125): the bits it has sampled and the bits still to be
sampled are those of the frame on the wire, from its start to its end. Settles O56 and O57. -/

namespace Sys2Proof.Machine

/-! ### What the receiver samples (R62) -/

theorem Rx.received_of_not_end {rx : Rx} {csN : Bool} (h : rx.frameEnds csN = false) (sclk sdata : Bool) :
    rx.received false csN sclk sdata = rx.sample csN sclk sdata := by
  simp [Rx.received, h]

/-- At the edge that asserts chip-select, with the clock high, the receiver begins with no bits. -/
theorem Rx.sample_buf_of_assert {rx : Rx} (hcs : rx.prevCsN = true) (hsclk : rx.prevSclk = true) (sclk sdata : Bool) :
    (rx.sample false sclk sdata).buf = [] := by
  simp [Rx.sample, hcs, hsclk]

/-- While chip-select is asserted, the receiver takes the data line when the clock rises. -/
theorem Rx.sample_buf_of_asserted {rx : Rx} (hcs : rx.prevCsN = false) (sclk sdata : Bool) :
    (rx.sample false sclk sdata).buf = rx.buf ++ if rx.prevSclk = false ∧ sclk = true then [sdata] else [] := by
  simp only [Rx.sample, hcs]
  cases rx.prevSclk <;> cases sclk <;> simp

@[simp] theorem Rx.content_sample (rx : Rx) (csN sclk sdata : Bool) : (rx.sample csN sclk sdata).content = rx.content :=
  rfl

@[simp] theorem Rx.content_remember (rx : Rx) (csN sclk : Bool) : (rx.remember csN sclk).content = rx.content := rfl

section
variable {s : State}

/-- A cycle that ends no frame and cuts none only samples the lines. -/
theorem stepNext_rx_of_not_end (hpow : s.input.powerLoss = false) (hcut : s.cutsFrame = false)
    (hend : s.rx.frameEnds (blockNext s).csN = false) : (stepNext s).rx =
      (s.rx.sample (blockNext s).csN (blockNext s).sclk (blockNext s).sdata).remember (blockNext s).csN
        (blockNext s).sclk := by
  rw [stepNext_rx hpow, hcut, Rx.received_of_not_end hend]

/-- Chip-select stays asserted at no reset edge. -/
theorem cutsFrame_of_csN (h : s.csN = true ∨ (blockNext s).csN = false) : s.cutsFrame = false := by
  rcases h with h | h
  · simp [State.cutsFrame, h]
  · cases hr : s.input.rst with
    | true => simp [blockNext_of_rst hr] at h
    | false => simp [State.cutsFrame, hr]

theorem frameEnds_of_csN (hprev : s.rx.prevCsN = s.csN) (h : s.csN = true ∨ (blockNext s).csN = false) :
    s.rx.frameEnds (blockNext s).csN = false := by
  rcases h with h | h <;> simp [Rx.frameEnds, hprev, h]

/-! ### The bits of the frame on the wire -/

/-- The bits the receiver has sampled since chip-select was asserted, and those it has still to sample (R125). -/
def State.onWire (s : State) : List Bool := s.rx.buf ++ s.toSample

theorem State.toSample_high (h : s.phase = .high) : s.toSample = ((bitsMSB s.shreg).take s.nbits).tail := if_pos h

theorem State.toSample_not_high (h : s.phase ≠ .high) : s.toSample = (bitsMSB s.shreg).take s.nbits := if_neg h

@[simp] theorem State.toSample_start (s : State) (f : Frame) (fs : List Frame) :
    (s.start f fs).toSample = frameBits f := by
  rw [State.toSample_not_high (by simp)]
  exact leftAlign_take _ (frameBits_length_le f)

@[simp] theorem stepNext_toSample (s : State) : (stepNext s).toSample = (blockNext s).toSample := rfl

/-- The bit on top of the register is the first of those still to be sent. -/
theorem bitsMSB_take_eq_cons (r : ShiftReg) {n : Nat} (h : 1 ≤ n) :
    (bitsMSB r).take n = r.getLsbD 24 :: ((bitsMSB r).take n).tail := by
  obtain ⟨n, rfl⟩ : ∃ m, n = m + 1 := ⟨n - 1, by omega⟩
  rfl

/-- At an edge of `LOW` the data line has the current bit or takes it (R116). -/
theorem State.Tracked.driven (h : s.Tracked) (hp : s.phase = .low) : s.driven = s.shreg.getLsbD 24 := by
  unfold State.driven
  split
  · rfl
  next ht => exact h.data hp ht

/-- Chip-select is asserted by starting a frame, a request's first or the next one pending, and by nothing else
(R113, R118). -/
theorem BlockMove.start_of_assert {t : State} (m : BlockMove s t) (h : s.Inv) (hs : s.csN = true) (ht : t.csN = false) :
    ∃ f fs, f.inRange = true ∧ t = s.start f fs ∧ (s.phase = .idle ∨ s.pend = f :: fs) := by
  cases m with
  | reset | endFrame => simp at ht
  | stay | wait | fall | drive | rise | nextBit | finish | fail => simp [State.failed, hs] at ht
  | accept hp f fs hb =>
    obtain ⟨-, hin⟩ := hb
    exact ⟨f, fs, hin f (by simp [Expansion.frames]), rfl, .inl hp⟩
  | nextFrame hp ht f fs hq => exact ⟨f, fs, h.pendInRange f (by simp [hq]), rfl, .inr hq⟩

/-- Without reset, chip-select is deasserted after the last bit of a frame, and by nothing else (R117). -/
theorem BlockMove.end_of_deassert {t : State} (m : BlockMove s t) (hr : s.input.rst = false) (hs : s.csN = false)
    (ht : t.csN = true) : s.phase = .high ∧ s.nbits = 1 ∧ t.pend = s.pend := by
  cases m with
  | reset hrst => simp [hr] at hrst
  | stay | wait | fall | drive | rise | nextBit | finish | fail | accept | nextFrame => simp [State.failed, hs] at ht
  | endFrame hp _ hn => exact ⟨hp, hn, rfl⟩

/-- Unless chip-select changes, the pending frames wait. -/
theorem BlockMove.pend_of_csN_eq {t : State} (m : BlockMove s t) (hr : s.input.rst = false) (h : s.Inv)
    (hcs : t.csN = s.csN) : t.pend = s.pend := by
  cases m with
  | reset hrst => simp [hr] at hrst
  | stay | wait | fall | drive | rise | nextBit | finish | fail | endFrame => rfl
  | accept hp | nextFrame hp => simp [h.csN_iff.mpr (by simp [hp])] at hcs

/-- While chip-select stays asserted, what a move lets the receiver sample is what is no longer to be sampled: the top
bit of the register when the clock rises, and nothing otherwise (R116, R117). -/
theorem BlockMove.toSample_of_asserted {t : State} (m : BlockMove s t) (h : s.Inv) (tr : s.Tracked) (hs : s.csN = false)
    (ht : t.csN = false) : (if s.sclk = false ∧ t.sclk = true then [t.sdata] else []) ++ t.toSample = s.toSample := by
  cases m with
  | reset | endFrame => simp at ht
  | stay hp | fail hp | accept hp | nextFrame hp | finish hp => simp [h.csN_iff.mpr (by simp [hp])] at hs
  | wait | drive => simp [State.toSample]
  | fall hp => simp [State.toSample, hp]
  | rise hp =>
    obtain ⟨-, hsclk, hn, -⟩ := h.low hp
    rw [if_pos ⟨hsclk, rfl⟩, State.toSample_high rfl, State.toSample_not_high (by simp [hp]), tr.driven hp]
    exact (bitsMSB_take_eq_cons s.shreg hn).symm
  | nextBit hp =>
    obtain ⟨-, -, -, hn⟩ := h.high hp
    rw [State.toSample_not_high (by simp), State.toSample_high hp, ← bitsMSB_take_shiftLeft_one _ _ hn]
    simp

/-- From the edge that starts a frame, the bits on the wire are those of the frame. -/
theorem stepNext_onWire_of_start (h : s.Inv) (tr : s.Tracked) (hpow : s.input.powerLoss = false) {f : Frame}
    {fs : List Frame} (hs : s.csN = true) (hb : blockNext s = s.start f fs) : (stepNext s).onWire = frameBits f := by
  obtain ⟨hcs, hsclk⟩ := tr.lines
  have hidle := h.csN_iff.mp hs
  have hsclk' : s.sclk = true := h.sclk_iff.mpr (by rcases hidle with hp | hp <;> simp [hp])
  rw [State.onWire, stepNext_rx_of_not_end hpow (cutsFrame_of_csN (.inl hs)) (frameEnds_of_csN hcs (.inl hs)),
    stepNext_toSample, hb, State.toSample_start, Rx.remember_buf, State.start_csN,
    Rx.sample_buf_of_assert (hcs.trans hs) (hsclk.trans hsclk'), List.nil_append]

/-- While chip-select stays asserted, the bits on the wire stay the same (R125). -/
theorem stepNext_onWire_of_asserted (h : s.Inv) (tr : s.Tracked) (hpow : s.input.powerLoss = false)
    (hs : s.csN = false) (ht : (blockNext s).csN = false) : (stepNext s).onWire = s.onWire := by
  obtain ⟨hcs, hsclk⟩ := tr.lines
  rw [State.onWire, stepNext_rx_of_not_end hpow (cutsFrame_of_csN (.inr ht)) (frameEnds_of_csN hcs (.inr ht)), ht,
    Rx.remember_buf, Rx.sample_buf_of_asserted (hcs.trans hs), hsclk, List.append_assoc, stepNext_toSample,
    (blockNext_move s).toSample_of_asserted h tr hs ht, State.onWire]

/-- What the receiver holds changes only in a cycle in which chip-select rises (R62). -/
theorem stepNext_content (hprev : s.rx.prevCsN = s.csN) (hpow : s.input.powerLoss = false)
    (hcs : s.csN = true ∨ (blockNext s).csN = false) : (stepNext s).rx.content = s.rx.content := by
  rw [stepNext_rx_of_not_end hpow (cutsFrame_of_csN hcs) (frameEnds_of_csN hprev hcs), Rx.content_remember,
    Rx.content_sample]

/-- When a frame ends, the receiver has sampled its bits, and its content is what the frame makes of it (R69, R125). -/
theorem stepNext_rx_of_end (tr : s.Tracked) (hr : s.input.rst = false) (hpow : s.input.powerLoss = false)
    (hs : s.csN = false) (ht : (blockNext s).csN = true) {f : Frame} (hin : f.inRange = true)
    (hf : s.onWire = frameBits f) :
    (stepNext s).rx.buf = frameBits f ∧ (stepNext s).rx.content = (s.rx.apply f).content := by
  obtain ⟨hp, hn, -⟩ := (blockNext_move s).end_of_deassert hr hs ht
  obtain ⟨hcs, -⟩ := tr.lines
  have hcut : s.cutsFrame = false := by simp [State.cutsFrame, hr]
  have hdone : s.toSample = [] := List.eq_nil_of_length_eq_zero (by simp [State.toSample_high hp, hn])
  have hbuf : s.rx.buf = frameBits f := by rw [← hf, State.onWire, hdone, List.append_nil]
  have hrx : s.looked.rx = s.rx.apply f := by
    rw [State.looked_of_frameEnd hcut (hcs.trans hs) ht (by rw [hbuf, decodeFrame_frameBits hin]), State.setRx_rx]
  rw [stepNext_eq_endCycle, endCycle_rx_of_powered (s.looked_input ▸ hpow), hrx]
  exact ⟨by simp [hbuf], rfl⟩

/-- Every move leaves the data line with the current bit from the second cycle of `LOW` on (R116). -/
theorem BlockMove.data {t : State} (m : BlockMove s t) (tr : s.Tracked) (hp : t.phase = .low)
    (ht : t.timer ≠ t.cfg.np - 1) : t.sdata = t.shreg.getLsbD 24 := by
  cases m with
  | reset | rise | endFrame | accept | nextFrame | finish => simp at hp
  | stay hidle | fail hidle => simp [State.failed, hidle] at hp
  | wait _ hlow => exact absurd hp hlow
  | fall | nextBit => exact absurd rfl ht
  | drive hlow => exact tr.driven hlow

/-- While the peripheral keeps its power, a cycle keeps the receiver in step with the block. -/
theorem State.Tracked.stepNext (tr : s.Tracked) (h : s.Inv) (hpow : s.input.powerLoss = false) :
    (stepNext s).Tracked where
  lines := by rw [stepNext_rx hpow]; exact ⟨rfl, rfl⟩
  data := by
    have := (blockNext_move s).data tr
    simpa using this
  frame ht := by
    cases hs : s.csN with
    | true =>
      obtain ⟨f, fs, hin, hb, -⟩ := (blockNext_move s).start_of_assert h hs ht
      exact ⟨f, hin, stepNext_onWire_of_start h tr hpow hs hb⟩
    | false =>
      obtain ⟨f, hin, hf⟩ := tr.frame hs
      exact ⟨f, hin, (stepNext_onWire_of_asserted h tr hpow hs ht).trans hf⟩

end

/-! ### The obligations -/

/-- Settles O56: a frame is on the wire from its first cycle, and each cycle keeps its bits. -/
theorem everyStepKeepsTheReceiverTracked : Obligations.EveryStepKeepsTheReceiverTracked := by
  intro s t h tr hpow ht
  rw [step_eq] at ht
  obtain rfl := Host.Outcome.next.inj ht
  exact tr.stepNext h hpow

/-- Settles O57: a frame that ends was on the wire whole, and the receiver applies no frame in another cycle. -/
theorem everyFinishedFrameIsReceivedWhole : Obligations.EveryFinishedFrameIsReceivedWhole := by
  constructor
  · intro s t _ tr hr hpow hs ht hend
    rw [step_eq] at ht
    obtain rfl := Host.Outcome.next.inj ht
    obtain ⟨f, hin, hf⟩ := tr.frame hs
    exact ⟨f, hin, stepNext_rx_of_end tr hr hpow hs hend hin hf⟩
  · intro s t tr hpow ht hcs
    rw [step_eq] at ht
    obtain rfl := Host.Outcome.next.inj ht
    obtain ⟨hprev, -⟩ := tr.lines
    exact stepNext_content hprev hpow hcs

end Sys2Proof.Machine
end

section
/-! SUPPORT and PROOF. Where the block is in each cycle of a frame (R120): the phase, the bit and the cycle of the
phase, from the first cycle of `SETUP` to the end of the gap. Settles O58. -/

namespace Sys2Proof.Machine

/-! ### The inputs along a run (R111) -/

theorem iterate_stepNext_inputs (s : State) (k : Nat) : (stepNext^[k] s).inputs = s.inputs.drop k := by
  induction k with
  | zero => rfl
  | succ k ih => rw [Function.iterate_succ_apply', stepNext_inputs, ih, List.tail_drop]

theorem iterate_stepNext_input (s : State) (k : Nat) : (stepNext^[k] s).input = s.inputs.getD k PortIn.quiet := by
  rw [State.input, iterate_stepNext_inputs]
  simp

theorem State.noReset.rst {s : State} {n : Nat} (h : s.noReset n) {k : Nat} (hk : k < n) :
    (stepNext^[k] s).input.rst = false := by
  rw [iterate_stepNext_input]
  exact h k hk

theorem State.powered.powerLoss {s : State} {n : Nat} (h : s.powered n) {k : Nat} (hk : k < n) :
    (stepNext^[k] s).input.powerLoss = false := by
  rw [iterate_stepNext_input]
  exact h k hk

/-! ### A place in the frame -/

/-- `u` is in cycle `i` of phase `ph` of bit `j` of the frame that `s` holds, sent after the bits before it. The gap
comes after the last bit. -/
structure State.At (s : State) (ph : Phase) (j i : Nat) (u : State) : Prop where
  cfg : u.cfg = s.cfg
  phase : u.phase = ph
  timer : u.timer = phaseCycles s.cfg ph - 1 - i
  csN : u.csN = decide (ph = .gap)
  sclk : u.sclk = decide (ph ≠ .low)
  shreg : u.shreg = s.shreg <<< j
  nbits : u.nbits = s.nbits - j
  pend : u.pend = s.pend
  sdata : ph = .high ∨ (ph = .low ∧ 1 ≤ i) → u.sdata = s.shreg.getMsbD j

/-- While the timer of a phase runs, it counts down, and in `LOW` the data line is driven (R115 to R118). -/
theorem blockNext_of_timer {s : State} (hp : s.phase ≠ .idle) (hr : s.input.rst = false) (ht : s.timer ≠ 0) :
    blockNext s =
      { s with sdata := if s.phase = .low then s.driven else s.sdata, timer := s.timer - 1 } := by
  cases h : s.phase with
  | idle => exact absurd h hp
  | setup => simp [blockNext_setup h hr, setupEdge, h, ht]
  | low => simp [blockNext_low h hr, lowEdge, h, ht, State.driven]
  | high => simp [blockNext_high h hr, highEdge, h, ht]
  | gap => simp [blockNext_gap h hr, gapEdge, h, ht]

theorem getLsbD_shiftLeft_top (r : ShiftReg) (j : Nat) : (r <<< j).getLsbD 24 = r.getMsbD j := by
  change (r <<< j).getMsbD 0 = _
  rw [BitVec.getMsbD_shiftLeft, Nat.zero_add]

section
variable {s u : State} {ph : Phase} {i j : Nat}

/-- An edge of `LOW` leaves the bit on the data line. -/
theorem State.At.driven (h : s.At .low j i u) : u.driven = s.shreg.getMsbD j := by
  have htimer := h.timer
  rw [State.driven, h.cfg]
  split
  · rw [h.shreg, getLsbD_shiftLeft_top]
  next ht => exact h.sdata (.inr ⟨rfl, by simp only [phaseCycles] at htimer; omega⟩)

/-- The next cycle of the same phase. -/
theorem State.At.succ (h : s.At ph j i u) (hi : i + 1 < phaseCycles s.cfg ph) (hr : u.input.rst = false) :
    s.At ph j (i + 1) (stepNext u) := by
  have htimer := h.timer
  have hidle : u.phase ≠ .idle := by intro hp; rw [← h.phase, hp] at hi; simp [phaseCycles] at hi
  have hblock := blockNext_of_timer hidle hr (by omega)
  constructor
  case timer => simp only [stepNext_timer, hblock]; omega
  case sdata =>
    rintro (rfl | ⟨rfl, -⟩)
    · simp [hblock, h.phase, h.sdata (.inl rfl)]
    · simp [hblock, h.phase, h.driven]
  all_goals simp [hblock, h.cfg, h.phase, h.csN, h.sclk, h.shreg, h.nbits, h.pend]

/-- After the last cycle of `SETUP` the clock falls for the first bit (R115). -/
theorem State.At.low_of_setup (h : s.At .setup 0 (phaseCycles s.cfg .setup - 1) u) (hr : u.input.rst = false) :
    s.At .low 0 0 (stepNext u) := by
  have hblock : blockNext u = { u with phase := .low, sclk := false, timer := u.cfg.np - 1 } := by
    rw [blockNext_setup h.phase hr, setupEdge, if_pos (by rw [h.timer]; omega)]
  constructor <;> simp [hblock, phaseCycles, h.cfg, h.csN, h.shreg, h.nbits, h.pend]

/-- After the last cycle of `LOW` the clock rises, with the bit on the data line (R116). -/
theorem State.At.high_of_low (h : s.At .low j (phaseCycles s.cfg .low - 1) u) (hr : u.input.rst = false) :
    s.At .high j 0 (stepNext u) := by
  have hblock : blockNext u =
      { u with sdata := u.driven, phase := .high, sclk := true, timer := u.cfg.np - 1 } := by
    rw [blockNext_low h.phase hr, lowEdge, if_pos (by rw [h.timer]; omega)]
    rfl
  constructor <;> simp [hblock, phaseCycles, h.cfg, h.csN, h.shreg, h.nbits, h.pend, h.driven]

/-- After the last cycle of `HIGH` the next bit starts (R117). -/
theorem State.At.low_of_high (h : s.At .high j (phaseCycles s.cfg .high - 1) u) (hj : j + 1 < s.nbits)
    (hr : u.input.rst = false) : s.At .low (j + 1) 0 (stepNext u) := by
  have hblock : blockNext u = { u with
      shreg := u.shreg <<< 1, nbits := u.nbits - 1, phase := .low, sclk := false, timer := u.cfg.np - 1 } := by
    rw [blockNext_high h.phase hr, highEdge, if_pos (by rw [h.timer]; omega)]
    exact if_neg (by rw [h.nbits]; omega)
  constructor <;> simp [hblock, phaseCycles, h.cfg, h.csN, h.shreg, h.nbits, h.pend, BitVec.shiftLeft_add, Nat.sub_sub]

/-- After the last bit chip-select is deasserted (R117). -/
theorem State.At.gap_of_high (h : s.At .high j (phaseCycles s.cfg .high - 1) u) (hj : j + 1 = s.nbits)
    (hr : u.input.rst = false) : s.At .gap s.nbits 0 (stepNext u) := by
  have hblock : blockNext u = { u with
      shreg := u.shreg <<< 1, nbits := u.nbits - 1, csN := true, phase := .gap, timer := u.cfg.ng - 1 } := by
    rw [blockNext_high h.phase hr, highEdge, if_pos (by rw [h.timer]; omega)]
    exact if_pos (by rw [h.nbits]; omega)
  constructor <;> simp [hblock, phaseCycles, h.cfg, h.sclk, h.shreg, h.nbits, h.pend, ← hj, BitVec.shiftLeft_add]

/-- After the last cycle of the gap the block is idle, or the next frame starts (R118). -/
theorem State.At.after_gap (h : s.At .gap j (phaseCycles s.cfg .gap - 1) u) (hr : u.input.rst = false) :
    (s.pend = [] → (stepNext u).phase = .idle) ∧ ∀ f fs, s.pend = f :: fs → blockNext u = u.start f fs := by
  have hblock : blockNext u = gapEdge u := blockNext_gap h.phase hr
  rw [gapEdge, if_pos (by rw [h.timer]; omega), h.pend] at hblock
  refine ⟨fun hq => ?_, fun f fs hq => ?_⟩
  · simp [hblock, hq]
  · rw [hblock, hq]

end

/-! ### From phase to phase -/

section
variable {s : State} {N : Nat} {ph : Phase} {i j k n : Nat}

/-- Every cycle of a phase, from its first. -/
theorem State.At.add (hN : s.noReset N) (h : s.At ph j 0 (stepNext^[n] s)) (hk : k < phaseCycles s.cfg ph)
    (hn : n + k ≤ N) : s.At ph j k (stepNext^[n + k] s) := by
  induction k with
  | zero => exact h
  | succ k ih =>
    rw [← Nat.add_assoc, Function.iterate_succ_apply']
    exact (ih (by omega) (by omega)).succ hk (hN.rst (by omega))

/-- A phase is left after exactly its cycles. -/
theorem State.At.leave (hN : s.noReset N) (h : s.At ph j 0 (stepNext^[n] s)) (hpos : 0 < phaseCycles s.cfg ph)
    (hn : n + phaseCycles s.cfg ph ≤ N) : ∃ u, stepNext^[n + phaseCycles s.cfg ph] s = stepNext u
      ∧ s.At ph j (phaseCycles s.cfg ph - 1) u ∧ u.input.rst = false := by
  refine ⟨stepNext^[n + (phaseCycles s.cfg ph - 1)] s, ?_, h.add hN (by omega) (by omega), hN.rst (by omega)⟩
  rw [← Function.iterate_succ_apply' stepNext]
  congr 1
  omega

/-- `LOW` is followed by `HIGH`. -/
theorem State.At.high (hN : s.noReset N) (h : s.At .low j 0 (stepNext^[n] s)) (hn : n + s.cfg.np ≤ N) :
    s.At .high j 0 (stepNext^[n + s.cfg.np] s) := by
  have := two_le_np s.cfg
  obtain ⟨u, hu, hlast, hr⟩ := h.leave hN (by simp only [phaseCycles]; omega) hn
  exact hu ▸ hlast.high_of_low hr

/-- The cycle, counted from the first of the frame, in which bit `j` begins (R120). -/
def bitStart (c : Config) (j : Nat) : Nat := c.ns + 2 * c.np * j

theorem bitStart_succ (c : Config) (j : Nat) : bitStart c (j + 1) = bitStart c j + c.np + c.np := by
  simp only [bitStart]
  ring

theorem bitStart_mono (c : Config) {m n : Nat} (h : m ≤ n) : bitStart c m ≤ bitStart c n :=
  Nat.add_le_add_left (Nat.mul_le_mul_left _ h) _

/-- The first cycle of each bit, from the first cycle of the frame. -/
theorem State.At.low_bitStart (hN : s.noReset N) (h : s.At .setup 0 0 s) (hj : j < s.nbits)
    (hn : bitStart s.cfg j ≤ N) : s.At .low j 0 (stepNext^[bitStart s.cfg j] s) := by
  have hnp := two_le_np s.cfg
  induction j with
  | zero =>
    have hns := one_le_ns s.cfg
    obtain ⟨u, hu, hlast, hr⟩ := State.At.leave (n := 0) hN h hns (by simpa [bitStart, phaseCycles] using hn)
    rw [Nat.zero_add] at hu
    exact hu ▸ hlast.low_of_setup hr
  | succ j ih =>
    rw [bitStart_succ] at hn ⊢
    have hlow := ih (by omega) (by omega)
    obtain ⟨u, hu, hlast, hr⟩ := (hlow.high hN (by omega)).leave hN (by simp only [phaseCycles]; omega) hn
    exact hu ▸ hlast.low_of_high hj hr

/-- The first cycle of the gap. -/
theorem State.At.gap_bitStart (hN : s.noReset N) (h : s.At .setup 0 0 s) (hbits : 1 ≤ s.nbits)
    (hn : bitStart s.cfg s.nbits ≤ N) : s.At .gap s.nbits 0 (stepNext^[bitStart s.cfg s.nbits] s) := by
  have hnp := two_le_np s.cfg
  obtain ⟨j, hj⟩ : ∃ j, j + 1 = s.nbits := ⟨s.nbits - 1, by omega⟩
  rw [← hj, bitStart_succ] at hn ⊢
  have hlow := h.low_bitStart hN (j := j) (by omega) (by omega)
  obtain ⟨u, hu, hlast, hr⟩ := (hlow.high hN (by omega)).leave hN (by simp only [phaseCycles]; omega) hn
  exact hu ▸ hj ▸ hlast.gap_of_high hj hr

end

/-- A phase of `NP` cycles is long enough (R7). -/
theorem tPhaseMin_le_np (c : Config) : c.params.tPhaseMinNs * c.params.fClkHz ≤ c.np * 1000000000 :=
  c.admitted.2.2.1

/-- Settles O58: every phase is entered at its stated cycle and lasts its cycles, bit after bit. -/
theorem everyPhaseLastsItsCycles : Obligations.EveryPhaseLastsItsCycles := by
  refine ⟨tPhaseMin_le_np, fun s hp ht hcs hsclk hbits _ hN => ?_⟩
  have hsetup : s.At .setup 0 0 s := by
    constructor <;> simp [hp, ht, hcs, hsclk, phaseCycles]
  have hend : bitStart s.cfg s.nbits + s.cfg.ng = frameCycles s.cfg s.nbits := rfl
  have hns : s.cfg.ns ≤ bitStart s.cfg s.nbits := Nat.le_add_right _ _
  have hgap : s.At .gap s.nbits 0 (stepNext^[bitStart s.cfg s.nbits] s) := hsetup.gap_bitStart hN hbits (by omega)
  have hbit (j : Nat) (hj : j < s.nbits) : bitStart s.cfg j + s.cfg.np + s.cfg.np ≤ bitStart s.cfg s.nbits :=
    bitStart_succ s.cfg j ▸ bitStart_mono s.cfg hj
  have hlow (j : Nat) (hj : j < s.nbits) : s.At .low j 0 (stepNext^[bitStart s.cfg j] s) :=
    hsetup.low_bitStart hN hj (by have := hbit j hj; omega)
  have hhigh (j : Nat) (hj : j < s.nbits) : s.At .high j 0 (stepNext^[bitStart s.cfg j + s.cfg.np] s) :=
    (hlow j hj).high hN (by have := hbit j hj; omega)
  refine ⟨fun k hk => ?_, fun j k hj hk => ?_, fun j k hj hk => ?_, fun k hk => ?_, ?_⟩
  · have h := State.At.add (n := 0) hN hsetup hk (by omega)
    rw [Nat.zero_add] at h
    exact ⟨_, core_run_eq _ _, h.phase, h.csN, h.sclk⟩
  · have h := (hlow j hj).add hN hk (by have := hbit j hj; omega)
    exact ⟨_, core_run_eq _ _, h.phase, h.csN, h.sclk, fun hk => h.sdata (.inr ⟨rfl, hk⟩)⟩
  · have h := (hhigh j hj).add hN hk (by have := hbit j hj; omega)
    exact ⟨_, core_run_eq _ _, h.phase, h.csN, h.sclk, h.sdata (.inl rfl)⟩
  · have h := hgap.add hN hk (by omega)
    exact ⟨_, core_run_eq _ _, h.phase, h.csN, h.sclk, h.pend⟩
  · have hng := one_le_ng s.cfg
    obtain ⟨u, hu, hlast, hr⟩ := hgap.leave hN hng (le_of_eq hend)
    obtain ⟨hidle, hnext⟩ := hlast.after_gap hr
    refine ⟨stepNext u, (core_run_eq _ _).trans (congrArg _ hu), hidle, fun f fs hq => ?_⟩
    simp [hnext f fs hq, hlast.cfg, hlast.sclk]

end Sys2Proof.Machine
end

section
/-! SUPPORT and PROOF. A request from its acceptance to its last gap (R58, R69, R121): the cycles that are left count
down by one at each edge, and the frames that are still to reach the receiver make of its content what the request's
frames make of it. Settles O59. -/

namespace Sys2Proof.Machine

/-! ### The cycles that are left (R121) -/

/-- The cycles until the block is idle, this one counted: the rest of the phase, the bits that follow it, the gap, and
the frames that are pending. -/
def State.cyclesLeft (s : State) : Nat :=
  match s.phase with
  | .idle => 0
  | .setup => s.timer + 1 + 2 * s.cfg.np * s.nbits + s.cfg.ng + requestCycles s.cfg s.pend
  | .low => s.timer + 1 + s.cfg.np + 2 * s.cfg.np * (s.nbits - 1) + s.cfg.ng + requestCycles s.cfg s.pend
  | .high => s.timer + 1 + 2 * s.cfg.np * (s.nbits - 1) + s.cfg.ng + requestCycles s.cfg s.pend
  | .gap => s.timer + 1 + requestCycles s.cfg s.pend

@[simp] theorem requestCycles_nil (c : Config) : requestCycles c [] = 0 := rfl

theorem requestCycles_cons (c : Config) (f : Frame) (fs : List Frame) :
    requestCycles c (f :: fs) = frameCycles c (frameBits f).length + requestCycles c fs := rfl

theorem State.cyclesLeft_start (s : State) (f : Frame) (fs : List Frame) :
    (s.start f fs).cyclesLeft = requestCycles s.cfg (f :: fs) := by
  have := one_le_ns s.cfg
  simp only [State.cyclesLeft, State.start_phase, State.start_timer, State.start_cfg, State.start_nbits,
    State.start_pend, requestCycles_cons, frameCycles]
  omega

section
variable {s t : State}

theorem State.phase_eq_idle_of_cyclesLeft (h : s.cyclesLeft = 0) : s.phase = .idle := by
  cases hp : s.phase <;> simp [State.cyclesLeft, hp] at h ⊢

theorem State.phase_ne_idle_of_cyclesLeft (h : s.cyclesLeft ≠ 0) : s.phase ≠ .idle := by
  intro hp
  simp [State.cyclesLeft, hp] at h

/-- Two phases of `NP` cycles for each bit. -/
theorem two_mul_np_bits (np : Nat) {n : Nat} (h : 1 ≤ n) : 2 * np * n = np + np + 2 * np * (n - 1) := by
  obtain ⟨n, rfl⟩ : ∃ m, n = m + 1 := ⟨n - 1, by omega⟩
  rw [Nat.add_sub_cancel]
  ring

theorem stepNext_cyclesLeft (s : State) : (stepNext s).cyclesLeft = (blockNext s).cyclesLeft := rfl

/-- Every edge of a busy block uses up one cycle. -/
theorem BlockMove.cyclesLeft (m : BlockMove s t) (h : s.Inv) (hr : s.input.rst = false) (hbusy : s.phase ≠ .idle) :
    s.cyclesLeft = t.cyclesLeft + 1 := by
  have hnp := two_le_np s.cfg
  have hng := one_le_ng s.cfg
  cases m with
  | reset hrst => simp [hr] at hrst
  | stay hp | fail hp | accept hp => exact absurd hp hbusy
  | wait _ hlow ht =>
    cases hp : s.phase with
    | idle => exact absurd hp hbusy
    | low => exact absurd hp hlow
    | setup | high | gap => simp only [State.cyclesLeft, hp]; omega
  | drive hp ht => simp only [State.cyclesLeft, hp]; omega
  | fall hp ht =>
    obtain ⟨-, -, hn⟩ := h.setup hp
    have := two_mul_np_bits s.cfg.np (n := s.nbits) (by omega)
    simp only [State.cyclesLeft, hp, ht]
    omega
  | rise hp ht => simp only [State.cyclesLeft, hp, ht]; omega
  | nextBit hp ht hn =>
    obtain ⟨-, -, h1, -⟩ := h.high hp
    have := two_mul_np_bits s.cfg.np (n := s.nbits - 1) (by omega)
    simp only [State.cyclesLeft, hp, ht]
    omega
  | endFrame hp ht hn => simp only [State.cyclesLeft, hp, ht, hn]; omega
  | nextFrame hp ht f fs hq =>
    rw [State.cyclesLeft_start]
    simp only [State.cyclesLeft, hp, ht, hq]
    omega
  | finish hp ht hq => simp [State.cyclesLeft, hp, ht, hq]

/-- A busy block records no error (R222). -/
theorem BlockMove.error_of_busy (m : BlockMove s t) (hr : s.input.rst = false) (hbusy : s.phase ≠ .idle) :
    t.err = s.err ∧ t.cause = s.cause := by
  cases m with
  | reset hrst => simp [hr] at hrst
  | stay hp | fail hp | accept hp => exact absurd hp hbusy
  | wait | fall | drive | rise | nextBit | endFrame | nextFrame | finish => exact ⟨rfl, rfl⟩

/-! ### The frames that are still to reach the receiver (R58) -/

/-- What a frame makes of a receiver's content depends on that content alone. -/
theorem Rx.content_apply {rx rx' : Rx} (h : rx.content = rx'.content) (f : Frame) :
    (rx.apply f).content = (rx'.apply f).content := by
  obtain ⟨mem, sys, lcd, refused, buf, prevCsN, prevSclk⟩ := rx
  obtain ⟨mem', sys', lcd', refused', buf', prevCsN', prevSclk'⟩ := rx'
  simp only [Rx.content, Prod.mk.injEq] at h
  obtain ⟨rfl, rfl, rfl, rfl⟩ := h
  cases f with
  | cmd code => simp only [Rx.apply, Rx.command]; split_ifs <;> rfl
  | data4 addr v => simp only [Rx.apply]; split_ifs <;> rfl
  | data16 addr v => simp only [Rx.apply]; split_ifs <;> rfl

theorem Rx.content_applyAll {rx rx' : Rx} (h : rx.content = rx'.content) (fs : List Frame) :
    (rx.applyAll fs).content = (rx'.applyAll fs).content := by
  induction fs generalizing rx rx' with
  | nil => exact h
  | cons f fs ih => exact ih (Rx.content_apply h f)

/-- The frames that are still to reach the receiver: the one on the wire while chip-select is asserted, and those
pending. -/
def State.Upcoming (s : State) (fs : List Frame) : Prop :=
  if s.csN then fs = s.pend else ∃ f, f.inRange = true ∧ s.onWire = frameBits f ∧ fs = f :: s.pend

theorem State.upcoming_of_deasserted (h : s.csN = true) (fs : List Frame) : s.Upcoming fs ↔ fs = s.pend := by
  simp [State.Upcoming, h]

theorem State.upcoming_of_asserted (h : s.csN = false) (fs : List Frame) :
    s.Upcoming fs ↔ ∃ f, f.inRange = true ∧ s.onWire = frameBits f ∧ fs = f :: s.pend := by
  simp [State.Upcoming, h]

/-- The edge that starts a frame puts it on the wire with its followers pending. -/
theorem State.Upcoming.of_start (h : s.Inv) (tr : s.Tracked) (hpow : s.input.powerLoss = false) (hs : s.csN = true)
    {f : Frame} {fs : List Frame} (hin : f.inRange = true) (hb : blockNext s = s.start f fs) :
    (stepNext s).Upcoming (f :: fs) := by
  refine (State.upcoming_of_asserted (by simp [hb]) _).mpr ⟨f, hin, stepNext_onWire_of_start h tr hpow hs hb, ?_⟩
  simp [hb]

/-- A cycle of a busy block applies the frame that ends in it, if one does, so what the upcoming frames make of the
receiver's content stays the same. -/
theorem State.Upcoming.stepNext {fs : List Frame} (hup : s.Upcoming fs) (h : s.Inv) (tr : s.Tracked)
    (hr : s.input.rst = false) (hpow : s.input.powerLoss = false) (hbusy : s.phase ≠ .idle) :
    ∃ gs, (stepNext s).Upcoming gs ∧ ((stepNext s).rx.applyAll gs).content = (s.rx.applyAll fs).content := by
  obtain ⟨hprev, -⟩ := tr.lines
  have hmove := blockNext_move s
  cases hs : s.csN with
  | true =>
    obtain rfl := (State.upcoming_of_deasserted hs fs).mp hup
    have hcontent := stepNext_content hprev hpow (.inl hs)
    refine ⟨s.pend, ?_, Rx.content_applyAll hcontent _⟩
    cases ht : (Machine.stepNext s).csN with
    | true => exact (State.upcoming_of_deasserted ht _).mpr (hmove.pend_of_csN_eq hr h (ht.trans hs.symm)).symm
    | false =>
      obtain ⟨f, fs, hin, hb, hq⟩ := hmove.start_of_assert h hs ht
      rw [hq.resolve_left hbusy]
      exact .of_start h tr hpow hs hin hb
  | false =>
    obtain ⟨f, hin, hf, rfl⟩ := (State.upcoming_of_asserted hs fs).mp hup
    cases ht : (Machine.stepNext s).csN with
    | true =>
      obtain ⟨-, -, hq⟩ := hmove.end_of_deassert hr hs ht
      obtain ⟨-, hcontent⟩ := stepNext_rx_of_end tr hr hpow hs ht hin hf
      exact ⟨s.pend, (State.upcoming_of_deasserted ht _).mpr hq.symm, Rx.content_applyAll hcontent _⟩
    | false =>
      have hcontent := stepNext_content hprev hpow (.inr ht)
      have hq := hmove.pend_of_csN_eq hr h (ht.trans hs.symm)
      refine ⟨f :: s.pend, (State.upcoming_of_asserted ht _).mpr ⟨f, hin, ?_, by simp [hq]⟩,
        Rx.content_applyAll hcontent _⟩
      exact (stepNext_onWire_of_asserted h tr hpow hs ht).trans hf

end

/-! ### The request under way -/

/-- `u` is `n` cycles before the end of the request that `s` accepted, with the frames `fs`: what is upcoming makes of
the receiver's content what `fs` makes of the content at `s`. -/
structure State.Delivering (s : State) (fs : List Frame) (n : Nat) (u : State) : Prop where
  inv : u.Inv
  tracked : u.Tracked
  cyclesLeft : u.cyclesLeft = n
  err : u.err = s.err
  cause : u.cause = s.cause
  upcoming : ∃ gs, u.Upcoming gs ∧ (u.rx.applyAll gs).content = (s.rx.applyAll fs).content

section
variable {s u : State} {f : Frame} {fs : List Frame} {n : Nat}

theorem State.Delivering.of_accept (h : s.Inv) (tr : s.Tracked) (hp : s.phase = .idle) (hv : s.input.reqValid = true)
    (he : expand s.cfg (decodeRequest s.input.reqWord) = some (.ok (f :: fs))) (hr : s.input.rst = false)
    (hpow : s.input.powerLoss = false) :
    s.Delivering (f :: fs) (requestCycles s.cfg (f :: fs)) (stepNext s) := by
  have hblock : blockNext s = s.start f fs := by
    rw [blockNext_idle_offered hp hr hv, wordExpansion, he]
    rfl
  have hcs : s.csN = true := h.csN_iff.mpr (.inl hp)
  obtain ⟨hprev, -⟩ := tr.lines
  obtain ⟨-, hin⟩ := expand_bounded s.cfg he
  exact {
    inv := h.stepNext
    tracked := tr.stepNext h hpow
    cyclesLeft := by rw [stepNext_cyclesLeft, hblock, State.cyclesLeft_start]
    err := by simp [hblock]
    cause := by simp [hblock]
    upcoming := ⟨f :: fs, .of_start h tr hpow hcs (hin f (by simp [Expansion.frames])) hblock,
      Rx.content_applyAll (stepNext_content hprev hpow (.inl hcs)) _⟩ }

theorem State.Delivering.succ (d : s.Delivering fs (n + 1) u) (hr : u.input.rst = false)
    (hpow : u.input.powerLoss = false) : s.Delivering fs n (stepNext u) := by
  have hbusy : u.phase ≠ .idle := State.phase_ne_idle_of_cyclesLeft (by rw [d.cyclesLeft]; simp)
  obtain ⟨gs, hup, hcontent⟩ := d.upcoming
  obtain ⟨gs', hup', hcontent'⟩ := hup.stepNext d.inv d.tracked hr hpow hbusy
  obtain ⟨herr, hcause⟩ := (blockNext_move u).error_of_busy hr hbusy
  have hleft : u.cyclesLeft = (stepNext u).cyclesLeft + 1 := (blockNext_move u).cyclesLeft d.inv hr hbusy
  exact {
    inv := d.inv.stepNext
    tracked := d.tracked.stepNext d.inv hpow
    cyclesLeft := Nat.succ.inj (hleft.symm.trans d.cyclesLeft)
    err := herr.trans d.err
    cause := hcause.trans d.cause
    upcoming := ⟨gs', hup', hcontent'.trans hcontent⟩ }

/-- When no cycle is left, all frames have reached the receiver. -/
theorem State.Delivering.content (d : s.Delivering fs 0 u) : u.rx.content = (s.rx.applyAll fs).content := by
  have hp := State.phase_eq_idle_of_cyclesLeft d.cyclesLeft
  obtain ⟨gs, hup, hcontent⟩ := d.upcoming
  obtain ⟨hcs, -, -, hq, -⟩ := d.inv.idle hp
  rw [State.upcoming_of_deasserted hcs, hq] at hup
  rw [← hcontent, hup, Rx.applyAll_nil]

/-- Every cycle after the one that accepted the request, to the one in which the block is idle again. -/
theorem State.Delivering.iterate {R : Nat} (hR : s.noReset (1 + R)) (hP : s.powered (1 + R))
    (d : s.Delivering fs R (stepNext s)) {k : Nat} (hk : k ≤ R) : s.Delivering fs (R - k) (stepNext^[1 + k] s) := by
  induction k with
  | zero => exact d
  | succ k ih =>
    rw [← Nat.add_assoc, Function.iterate_succ_apply']
    have hd := ih (by omega)
    rw [show R - k = R - (k + 1) + 1 by omega] at hd
    exact hd.succ (hR.rst (by omega)) (hP.powerLoss (by omega))

end

/-- Settles O59: from its acceptance the request is under way, with one cycle less left after each edge. -/
theorem acceptedRequestsAreDeliveredInTime : Obligations.AcceptedRequestsAreDeliveredInTime := by
  intro s f fs h tr hp hv he hR hP
  have hfirst := State.Delivering.of_accept h tr hp hv he (hR.rst (k := 0) (by omega))
    (hP.powerLoss (k := 0) (by omega))
  refine ⟨fun k h1 hk => ?_, ?_⟩
  · have d := hfirst.iterate hR hP (k := k - 1) (by omega)
    rw [Nat.add_sub_cancel' h1] at d
    refine ⟨_, core_run_eq k s, (State.busy_iff _).mpr (State.phase_ne_idle_of_cyclesLeft ?_)⟩
    rw [d.cyclesLeft]
    omega
  · have d := hfirst.iterate hR hP le_rfl
    rw [Nat.sub_self] at d
    exact ⟨_, core_run_eq _ s, State.phase_eq_idle_of_cyclesLeft d.cyclesLeft, d.err, d.cause,
      iterate_stepNext_inputs s _, d.content⟩

end Sys2Proof.Machine
end

section
/-! SUPPORT and PROOF. The requests of the protocol framer (R142 to R144): their expansions, the frame each of them
starts, and what its frame makes of the receiver. Settles O13, O14 and O15. -/

namespace Sys2Proof.Machine

/-! ### Requests at the port (R143, R144) -/

/-- Every address is one of the 64, so the range check of `DATA4` never fails. -/
theorem expandData4_eq (addr : Addr) (nib : Nibble) : expandData4 addr nib = .ok [.data4 addr nib] :=
  if_neg (by have := addr.isLt; omega)

theorem expandData16_of_le {addr : Addr} (h : addr.toNat ≤ 0x3C) (value : Pattern) :
    expandData16 addr value = .ok [.data16 addr value] :=
  if_neg (by omega)

theorem expandData16_of_lt {addr : Addr} (h : 0x3C < addr.toNat) (value : Pattern) :
    expandData16 addr value = .err .addrRange :=
  if_pos (by omega)

/-- One 4-bit frame and none to follow, at every address (R143). -/
theorem offer_expandData4 {s : State} (h : s.reqReady = true) (addr : Addr) (nib : Nibble) :
    offer (expandData4 addr nib) s = .next (s.sending 13 (data4Bits addr nib) []) := by
  rw [expandData4_eq, offer_frames h, State.start_data4]

/-- One 16-bit frame and none to follow, if its last location is inside the memory (R144). -/
theorem offer_expandData16_of_le {s : State} (h : s.reqReady = true) {addr : Addr} (haddr : addr.toNat ≤ 0x3C)
    (value : Pattern) : offer (expandData16 addr value) s = .next (s.sending 25 (data16Bits addr value) []) := by
  rw [expandData16_of_le haddr, offer_frames h, State.start_data16]

/-- The error of a write that would pass `0x3F` (R144). -/
theorem offer_expandData16_of_lt {s : State} (h : s.reqReady = true) {addr : Addr} (haddr : 0x3C < addr.toNat)
    (value : Pattern) :
    offer (expandData16 addr value) s = .next (if s.err then s else s.failed .addrRange) := by
  rw [expandData16_of_lt haddr, offer_error h]

/-! ### Data frames while the oscillator is on (R64) -/

theorem Rx.stored_of_sys {rx : Rx} (h : rx.sys = some true) (n : Nibble) : rx.stored n = some n := if_pos h

theorem Rx.read_apply_data4_same {rx : Rx} (hm : rx.mem.wf) (hsys : rx.sys = some true) (addr : Addr) (nib : Nibble) :
    (rx.apply (.data4 addr nib)).mem.read addr.toNat = some nib := by
  rw [Rx.read_apply_data4 hm, if_pos rfl, Rx.stored_of_sys hsys]

/-- Location `j` of the four takes the nibble that stands `j`-th from the value's most significant end. -/
theorem Rx.read_apply_data16_add {rx : Rx} (hm : rx.mem.wf) (hsys : rx.sys = some true) {addr : Addr}
    (haddr : addr.toNat ≤ 0x3C) (value : Pattern) {j : Nat} (hj : j < 4) :
    (rx.apply (.data16 addr value)).mem.read (addr.toNat + j) = some (value.extractLsb' (4 * (3 - j)) 4) := by
  rw [Rx.read_apply_data16 hm (by omega), if_pos (by omega), Nat.add_sub_cancel_left, Rx.stored_of_sys hsys]

/-! ### The obligations -/

/-- Settles O13: one frame for every code, and the receiver's cases on its code. -/
theorem cmdSendsOneCommandFrame : Obligations.CmdSendsOneCommandFrame := by
  refine ⟨fun w hop => ?_, fun code s hready => offer_expandCmd hready code, fun code rx hcode => ?_, fun rx => ?_⟩
  · rw [requestFieldsStandWhereTheTableSays w, if_pos hop]
  · obtain ⟨-, -, hrefused, -⟩ := rx.command_fields code
    exact hrefused.trans (by simp [hcode])
  · obtain ⟨hsys, -, -, -⟩ := rx.command_fields 0x01#8
    exact hsys

/-- Settles O14: `DATA4` expands to one frame at every address. -/
theorem data4SendsOneShortDataFrame : Obligations.Data4SendsOneShortDataFrame := by
  refine ⟨fun w hop hwsel => ?_, fun addr nib s hready => offer_expandData4 hready addr nib,
    fun addr nib rx hm hsys => Rx.read_apply_data4_same hm hsys addr nib⟩
  rw [requestFieldsStandWhereTheTableSays w, hop, hwsel]; rfl

/-- Settles O15: the range check splits the addresses at `0x3C`; the four nibbles at `0x24` are a case of the last
clause. -/
theorem data16SendsOneLongDataFrameOrFails : Obligations.Data16SendsOneLongDataFrameOrFails := by
  refine ⟨fun w hop hwsel => ?_, fun addr value s hready haddr => offer_expandData16_of_le hready haddr value,
    fun addr value s hready haddr => offer_expandData16_of_lt hready haddr value, fun rx hm hsys a hlo hhi => ?_,
    fun addr value rx hm hsys haddr j hj => Rx.read_apply_data16_add hm hsys haddr value hj⟩
  · rw [requestFieldsStandWhereTheTableSays w, hop, hwsel]; rfl
  · obtain ⟨j, rfl⟩ := Nat.exists_eq_add_of_le hlo
    have hj : j < 4 := by omega
    refine (Rx.read_apply_data16_add hm hsys (addr := 0x24#6) (by decide) 0xFFFF#16 hj).trans ?_
    interval_cases j <;> rfl

end Sys2Proof.Machine
end

section
/-! SUPPORT and PROOF. The display memory map (R160 to R168) and its two requests, `CELL` and `POINT` (R169 to R171):
where the cells and clusters stand, the value of each indicator, the frame or error of each request, and what its frame
makes of the receiver. Settles O10, O11, O12, O16, O17 and O37. -/

namespace Sys2Proof.Machine

/-! ### Cells (R160, R162) -/

/-- The cells are the blocks of four locations counted down from the top, so the cell of `a` is found by division. -/
theorem mem_cell_iff {p : Nat} (hp : p < 10) (a : Nat) :
    (0x24 - 4 * p ≤ a ∧ a ≤ 0x24 - 4 * p + 3) ↔ a / 4 = 9 - p := by
  omega

theorem cellAddr_toNat {p : Nat} (hp : p < 10) : (BitVec.ofNat 6 (0x24 - 4 * p)).toNat = 0x24 - 4 * p := by
  rw [BitVec.toNat_ofNat]
  omega

/-! ### Clusters and their values (R163 to R166, R168) -/

/-- The last of eleven clusters is at `0x3D`. -/
theorem clusterAddr_le {c : Config} {i : Nat} (h : i < c.pointCount) : 0x29 + 2 * (i / c.clusterSize) ≤ 0x3F := by
  have hcluster := cluster_lt h
  have hcount := clusterCount_le c
  omega

theorem clusterAddr_eq_clusterAddrOf (c : Config) (i : Nat) : clusterAddr c i = clusterAddrOf (i / c.clusterSize) :=
  clusterAddr_eq c i

theorem clusterAddrOf_toNat_of_lt {c : Config} {k : Nat} (h : k < c.clusterCount) :
    (clusterAddrOf k).toNat = 0x29 + 2 * k :=
  clusterAddrOf_toNat (h.le.trans (clusterCount_le c))

theorem clusterAddr_toNat {c : Config} {i : Nat} (h : i < c.pointCount) :
    (clusterAddr c i).toNat = 0x29 + 2 * (i / c.clusterSize) := by
  rw [clusterAddr_eq_clusterAddrOf, clusterAddrOf_toNat_of_lt (cluster_lt h)]

/-- The place of an indicator in its cluster is below 4, so its raw bit stays inside the nibble. -/
theorem rawBit_toNat (c : Config) (i : Nat) : (rawBit c i).toNat = 2 ^ (i % c.clusterSize) := by
  rw [rawBit_eq]
  have hplace := place_lt_four c i
  generalize i % c.clusterSize = place at hplace ⊢
  interval_cases place <;> rfl

theorem rawBit_toNat_le (c : Config) (i : Nat) : (rawBit c i).toNat ≤ 8 := by
  rw [rawBit_toNat]
  exact Nat.pow_le_pow_right (n := 2) (by decide) (Nat.le_of_lt_succ (place_lt_four c i))

theorem packBit_rawBit_toNat_le (c : Config) (i : Nat) : (packBit (rawBit c i)).toNat ≤ 13 := by
  rw [packBit_rawBit]
  have hplace := place_lt_four c i
  generalize i % c.clusterSize = place at hplace ⊢
  interval_cases place <;> decide

/-! ### Requests at the port (R169, R170) -/

theorem exec_cell (pos : BitVec 4) (pattern : Pattern) (s : State) :
    exec (.cell pos pattern) s = offer (expandCell pos pattern) s := rfl

theorem exec_point (index : BitVec 4) (on : Bool) (s : State) :
    exec (.point index on) s = offer (expandPoint s.cfg index on) s := rfl

theorem expandPoint_of_clusterCount_eq_zero {c : Config} (h : c.clusterCount = 0) (index : BitVec 4) (on : Bool) :
    expandPoint c index on = .ok [] :=
  if_pos h

theorem expandPoint_of_le {c : Config} (hcount : 0 < c.clusterCount) {index : BitVec 4}
    (h : c.pointCount ≤ index.toNat) (on : Bool) : expandPoint c index on = .err .badPoint := by
  rw [expandPoint, if_neg hcount.ne', if_pos h]

/-! ### One cell's and one cluster's frame at the receiver (R169, R171) -/

/-- Every location after the frame of a cell, with the oscillator on. -/
theorem Rx.read_apply_cell {rx : Rx} (hm : rx.mem.wf) (hsys : rx.sys = some true) {p : Nat} (hp : p < 10)
    (pattern : Pattern) (a : Nat) :
    (rx.apply (.data16 (BitVec.ofNat 6 (0x24 - 4 * p)) pattern)).mem.read a =
      if 0x24 - 4 * p ≤ a ∧ a ≤ 0x24 - 4 * p + 3 then
        some (pattern.extractLsb' (4 * (3 - (a - (0x24 - 4 * p)))) 4)
      else rx.mem.read a := by
  rw [Rx.read_apply_data16 hm (by rw [cellAddr_toNat hp]; omega), cellAddr_toNat hp, Rx.stored_of_sys hsys]

/-- Every location after a frame to the cluster of an indicator, with the oscillator on. -/
theorem Rx.read_apply_cluster {rx : Rx} (hm : rx.mem.wf) (hsys : rx.sys = some true) {c : Config} {i : Nat}
    (h : i < c.pointCount) (value : Nibble) (a : Nat) :
    (rx.apply (.data4 (clusterAddr c i) value)).mem.read a =
      if a = 0x29 + 2 * (i / c.clusterSize) then some value else rx.mem.read a := by
  rw [Rx.read_apply_data4 hm, clusterAddr_toNat h, Rx.stored_of_sys hsys]

/-! ### The obligations -/

/-- Settles O10: the cell of location `a` is the one whose position is `9 - a / 4`. -/
theorem cellsCoverTheirRangeOnce : Obligations.CellsCoverTheirRangeOnce := by
  refine ⟨fun _ => cellAddr?_of_lt, fun _ => cellAddr?_of_le, fun a => ⟨fun ha => ?_, ?_⟩⟩
  · refine ⟨9 - a / 4, ⟨by omega, (mem_cell_iff (by omega) a).mpr (by omega)⟩, ?_⟩
    rintro p ⟨hp, hmem⟩
    rw [mem_cell_iff hp] at hmem
    omega
  · rintro ⟨p, ⟨hp, hmem⟩, -⟩
    rw [mem_cell_iff hp] at hmem
    omega

/-- Settles O11: the cluster's number is below `CLUSTER_COUNT`, and the place in the cluster is below 4. -/
theorem indicatorDecoderNeverOverflows : Obligations.IndicatorDecoderNeverOverflows := by
  intro c i hi
  have hformula : i / c.clusterSize * 2 + 0x29 = 0x29 + 2 * (i / c.clusterSize) := by ring
  rw [hformula]
  exact ⟨clusterAddr_toNat hi, clusterAddr_le hi, cluster_lt hi, clusterAddr_eq_clusterAddrOf c i,
    fun _ => clusterAddrOf_toNat_of_lt, rawBit_toNat c i, rawBit_toNat_le c i, packBit_rawBit_toNat_le c i⟩

/-- Settles O12: the tables of the default configuration by evaluation, the values of every configuration by the place
in the cluster. -/
theorem pointMapTables : Obligations.PointMapTables :=
  ⟨fun _ => ite_not .., rfl, rfl, rfl, rfl, fun _ _ => rfl, by decide, by decide, packBit_rawBit⟩

/-- Settles O16: the cell table splits the positions at 10. -/
theorem cellWritesOneCellOrFails : Obligations.CellWritesOneCellOrFails := by
  refine ⟨fun w hop => ?_, fun pos pattern s hready hpos => ?_, fun pos pattern s hready hpos => ?_,
    fun pos pattern rx a hpos hm hsys => Rx.read_apply_cell hm hsys hpos pattern a⟩
  · rw [requestFieldsStandWhereTheTableSays w, hop]; rfl
  · rw [exec_cell, offer_expandCell hready, if_pos hpos]
  · rw [exec_cell, offer_expandCell hready, if_neg (Nat.not_lt.mpr hpos)]

/-- Settles O17: `POINT` has an empty expansion, an error, or one 4-bit frame. -/
theorem pointWritesItsClusterOrFails : Obligations.PointWritesItsClusterOrFails := by
  refine ⟨fun w hop => ?_, fun index on s _ hcount => ?_, fun index on s hready hcount hindex => ?_,
    fun index on s hready hindex => ?_⟩
  · rw [requestFieldsStandWhereTheTableSays w, hop]; rfl
  · rw [exec_point, expandPoint_of_clusterCount_eq_zero hcount, offer_empty]
  · rw [exec_point, expandPoint_of_le hcount hindex, offer_error hready]
  · rw [exec_point, expandPoint_ok on hindex, offer_frames hready, State.start_data4]

/-- Settles O37: the one frame of `POINT` is a 4-bit frame to the cluster's location. -/
theorem pointReplacesItsWholeCluster : Obligations.PointReplacesItsWholeCluster := by
  intro c index on rx fs hm hsys hindex hexpand
  obtain rfl : fs = [.data4 (clusterAddr c index.toNat) (if on then packBit (rawBit c index.toNat) else 0#4)] := by
    rw [expand, expandPoint_ok on hindex, ← packBit_rawBit, ← clusterAddr_eq] at hexpand
    simpa using hexpand.symm
  exact ⟨Rx.read_apply_cluster hm hsys hindex _, Rx.apply_data rx (Frame.inRange_data4 _ _) (by simp)⟩

end Sys2Proof.Machine
end

section
/-! SUPPORT and PROOF. The controller operations `RSTPTS`, `SETPT` and `FILL` (R190 to R192): the frames each of them
sends in ascending address order, its error or empty expansion, and what its frames together make of the receiver
(R195). Settles O18, O19, O20, O35 and O36. -/

namespace Sys2Proof.Machine

/-! ### Requests at the port (R190 to R192) -/

theorem exec_rstpts (s : State) : exec .rstpts s = offer (.ok (clearFrames s.cfg)) s := rfl

theorem exec_setpt (index : BitVec 4) (s : State) : exec (.setpt index) s = offer (expandSetpt s.cfg index) s := rfl

theorem exec_fill (on : Bool) (s : State) : exec (.fill on) s = offer (expandFill on) s := rfl

theorem clearFrames_of_clusterCount_eq_zero {c : Config} (h : c.clusterCount = 0) : clearFrames c = [] :=
  List.eq_nil_of_length_eq_zero (by rw [clearFrames_length, h])

theorem expandSetpt_of_clusterCount_eq_zero {c : Config} (h : c.clusterCount = 0) (index : BitVec 4) :
    expandSetpt c index = .ok [] :=
  if_pos h

theorem expandSetpt_of_le {c : Config} (hcount : 0 < c.clusterCount) {index : BitVec 4}
    (h : c.pointCount ≤ index.toNat) : expandSetpt c index = .err .badPoint := by
  rw [expandSetpt, if_neg hcount.ne', if_pos h]

theorem clusterCount_pos {c : Config} {i : Nat} (h : i < c.pointCount) : 0 < c.clusterCount :=
  (Nat.zero_le _).trans_lt (cluster_lt h)

/-- The frames of `RSTPTS` with `rest` to follow: cluster 0 is cleared first (R190). -/
theorem offer_clearFrames_append {s : State} (h : s.reqReady = true) (hcount : 0 < s.cfg.clusterCount)
    (rest : List Frame) : offer (.ok (clearFrames s.cfg ++ rest)) s =
      .next (s.sending 13 (data4Bits 0x29#6 0#4)
        (((List.range (s.cfg.clusterCount - 1)).map fun k => .data4 (BitVec.ofNat 6 (0x2B + 2 * k)) 0#4) ++ rest)) := by
  rw [clearFrames_eq hcount, List.cons_append, offer_frames h, State.start_data4]

/-- Read from its end, the cell table ascends in steps of four (R6, R192). -/
theorem cellAddrTable_reverse : cellAddrTable.reverse = (List.range 10).map fun k => BitVec.ofNat 6 (4 * k) := rfl

theorem cellAddrTable_reverse_tail :
    cellAddrTable.reverse.tail = (List.range 9).map fun k => BitVec.ofNat 6 (4 * (k + 1)) := rfl

/-- The frames of `FILL`, by the number of the cell counted from address 0 (R192). -/
def fillFrames (on : Bool) : List Frame :=
  (List.range 10).map fun k => .data16 (BitVec.ofNat 6 (4 * k)) (if on then 0xFFFF#16 else 0x0000#16)

theorem expandFill_eq (on : Bool) : expandFill on = .ok (fillFrames on) := by
  rw [expandFill, cellAddrTable_reverse, List.map_map]
  rfl

/-! ### Frames that store one nibble everywhere they reach (R64) -/

/-- If each of the frames leaves `v` at `a` when it covers `a`, and keeps `a` otherwise, then so do they together. -/
theorem Rx.read_applyAll_map_range {rx : Rx} (hm : rx.mem.wf) (hsys : rx.sys = some true) {frame : Nat → Frame}
    {covers : Nat → Prop} [DecidablePred covers] {a n : Nat} {v : Nibble}
    (hkeep : ∀ k (rx : Rx), (rx.apply (frame k)).sys = rx.sys)
    (hread : ∀ k, k < n → ∀ rx : Rx, rx.mem.wf → rx.sys = some true →
      (rx.apply (frame k)).mem.read a = if covers k then some v else rx.mem.read a) :
    (rx.applyAll ((List.range n).map frame)).sys = some true
      ∧ (rx.applyAll ((List.range n).map frame)).mem.read a =
        if ∃ k, k < n ∧ covers k then some v else rx.mem.read a := by
  induction n with
  | zero => simp [hsys]
  | succ n ih =>
    obtain ⟨ihsys, ihread⟩ := ih fun k hk => hread k (hk.trans n.lt_succ_self)
    have hlast := hread n n.lt_succ_self _ (Rx.wf_applyAll hm _) ihsys
    rw [List.range_succ, List.map_append, Rx.applyAll_append]
    refine ⟨(hkeep n _).trans ihsys, hlast.trans ?_⟩
    by_cases hn : covers n
    · rw [if_pos hn, if_pos ⟨n, n.lt_succ_self, hn⟩]
    · simp only [hn, if_false, ihread, Nat.exists_lt_succ_right, or_false]

/-! ### Every cluster cleared (R190) -/

theorem ne_cmd_of_mem_clearFrames {c : Config} {f : Frame} (h : f ∈ clearFrames c) (code : Code) :
    f ≠ .cmd code := by
  obtain ⟨k, -, rfl⟩ := List.mem_map.mp h
  exact Frame.noConfusion

theorem Rx.applyAll_clearFrames (rx : Rx) (c : Config) :
    rx.applyAll (clearFrames c) = { rx with mem := (rx.applyAll (clearFrames c)).mem } :=
  Rx.applyAll_data rx (fun _ => inRange_of_mem_clearFrames) fun _ => ne_cmd_of_mem_clearFrames

/-- Every location after the frames of `RSTPTS`, with the oscillator on. -/
theorem Rx.read_applyAll_clearFrames {rx : Rx} (hm : rx.mem.wf) (hsys : rx.sys = some true) (c : Config) (a : Nat) :
    (rx.applyAll (clearFrames c)).mem.read a =
      if ∃ k, k < c.clusterCount ∧ a = 0x29 + 2 * k then some 0#4 else rx.mem.read a := by
  refine (Rx.read_applyAll_map_range hm hsys (fun k rx => ?_) fun k hk rx hm hsys => ?_).2
  · exact (rx.apply_data4_flags (clusterAddrOf k) 0#4).1
  · rw [Rx.read_apply_data4 hm, clusterAddrOf_toNat_of_lt hk, Rx.stored_of_sys hsys]

/-! ### One indicator lit (R191, R195) -/

/-- The frames of an accepted `SETPT`: every cluster is cleared, then one is written (R191). -/
theorem frames_of_expand_setpt {c : Config} {index : BitVec 4} {fs : List Frame} (h : index.toNat < c.pointCount)
    (hexpand : expand c (.setpt index) = some (.ok fs)) :
    fs = clearFrames c ++ [.data4 (clusterAddr c index.toNat) (packBit (rawBit c index.toNat))] := by
  rw [expand, expandSetpt_ok h, ← packBit_rawBit, ← clusterAddr_eq] at hexpand
  simpa using hexpand.symm

section
variable {rx : Rx} {c : Config} {i : Nat}

theorem Rx.sys_applyAll_setpt (value : Nibble) :
    (rx.applyAll (clearFrames c ++ [.data4 (clusterAddr c i) value])).sys = rx.sys := by
  rw [Rx.applyAll_append, Rx.applyAll_cons, Rx.applyAll_nil, Rx.applyAll_clearFrames]
  exact (Rx.apply_data4_flags _ _ _).1

/-- Every location after the frames of `SETPT`, with the oscillator on. -/
theorem Rx.read_applyAll_setpt (hm : rx.mem.wf) (hsys : rx.sys = some true) (h : i < c.pointCount) (value : Nibble)
    (a : Nat) : (rx.applyAll (clearFrames c ++ [.data4 (clusterAddr c i) value])).mem.read a =
      if a = 0x29 + 2 * (i / c.clusterSize) then some value
      else if ∃ k, k < c.clusterCount ∧ a = 0x29 + 2 * k then some 0#4 else rx.mem.read a := by
  have hclear : (rx.applyAll (clearFrames c)).sys = some true := by rw [Rx.applyAll_clearFrames, hsys]
  rw [Rx.applyAll_append, Rx.applyAll_cons, Rx.applyAll_nil, Rx.read_apply_cluster (Rx.wf_applyAll hm _) hclear h,
    Rx.read_applyAll_clearFrames hm hsys]

/-- Each cluster after the frames of `SETPT`. -/
theorem Rx.read_cluster_applyAll_setpt (hm : rx.mem.wf) (hsys : rx.sys = some true) (h : i < c.pointCount)
    (value : Nibble) {j : Nat} (hj : j < c.clusterCount) :
    (rx.applyAll (clearFrames c ++ [.data4 (clusterAddr c i) value])).mem.read (0x29 + 2 * j) =
      some (if j = i / c.clusterSize then value else 0#4) := by
  rw [Rx.read_applyAll_setpt hm hsys h]
  by_cases hji : j = i / c.clusterSize
  · rw [if_pos hji, if_pos (by omega)]
  · rw [if_neg hji, if_neg (by omega), if_pos ⟨j, hj, rfl⟩]

/-- Each location that is no cluster after the frames of `SETPT`. -/
theorem Rx.read_other_applyAll_setpt (hm : rx.mem.wf) (hsys : rx.sys = some true) (h : i < c.pointCount)
    (value : Nibble) {a : Nat} (ha : ∀ j, j < c.clusterCount → a ≠ 0x29 + 2 * j) :
    (rx.applyAll (clearFrames c ++ [.data4 (clusterAddr c i) value])).mem.read a = rx.mem.read a := by
  rw [Rx.read_applyAll_setpt hm hsys h, if_neg (ha _ (cluster_lt h)), if_neg]
  rintro ⟨k, hk, rfl⟩
  exact ha k hk rfl

end

/-- For a cluster of up to three indicators the packed bit is one bit: 4, 2 or 1 (R195). -/
theorem packBit_rawBit_eq_twoPow {c : Config} (h : c.clusterSize ≤ 3) (i : Nat) :
    packBit (rawBit c i) = BitVec.twoPow 4 (2 - i % c.clusterSize) := by
  rw [packBit_rawBit]
  have hsize := clusterSize_cases c
  have hplace : i % c.clusterSize < 3 := (Nat.mod_lt i (by omega)).trans_le h
  generalize i % c.clusterSize = place at hplace ⊢
  interval_cases place <;> rfl

/-- A nibble that is 0 except in one cluster, and has one bit there, marks one pair of cluster and bit. -/
theorem getLsbD_ite_twoPow {j q b p : Nat} (hp : p < 4) :
    (if j = q then BitVec.twoPow 4 p else 0#4).getLsbD b = true ↔ j = q ∧ b = p := by
  by_cases hj : j = q
  · simp [hj, hp, BitVec.getLsbD_twoPow, eq_comm]
  · simp [hj]

/-! ### Every cell filled (R192) -/

theorem fillCellAddr_toNat {k : Nat} (hk : k < 10) : (BitVec.ofNat 6 (4 * k)).toNat = 4 * k := by
  rw [BitVec.toNat_ofNat]
  omega

/-- Multiples of four wrap at 64, so a frame to one never passes the end of the memory (R64). -/
theorem fillCellAddr_add_four_le (k : Nat) : (BitVec.ofNat 6 (4 * k)).toNat + 4 ≤ 64 := by
  rw [BitVec.toNat_ofNat]
  omega

/-- The four nibbles of a fill value are the same (R192). -/
theorem extractLsb'_fillValue (on : Bool) {j : Nat} (hj : j < 4) :
    (if on then 0xFFFF#16 else 0x0000#16).extractLsb' (4 * j) 4 = if on then 0xF#4 else 0x0#4 := by
  cases on <;> interval_cases j <;> rfl

/-- Every location after the frame of one cell, with the oscillator on. -/
theorem Rx.read_apply_fillCell {rx : Rx} (hm : rx.mem.wf) (hsys : rx.sys = some true) (on : Bool) {k : Nat}
    (hk : k < 10) (a : Nat) :
    (rx.apply (.data16 (BitVec.ofNat 6 (4 * k)) (if on then 0xFFFF#16 else 0x0000#16))).mem.read a =
      if a / 4 = k then some (if on then 0xF#4 else 0x0#4) else rx.mem.read a := by
  have haddr := fillCellAddr_toNat hk
  rw [Rx.read_apply_data16 hm (fillCellAddr_add_four_le k), haddr, Rx.stored_of_sys hsys]
  by_cases ha : a / 4 = k
  · rw [if_pos ha, if_pos (by omega), extractLsb'_fillValue on (by omega)]
  · rw [if_neg ha, if_neg (by omega)]

/-- Every location after the frames of `FILL`, with the oscillator on: the ten cells are the locations below `0x28`. -/
theorem Rx.read_applyAll_fillFrames {rx : Rx} (hm : rx.mem.wf) (hsys : rx.sys = some true) (on : Bool) (a : Nat) :
    (rx.applyAll (fillFrames on)).mem.read a =
      if a < 0x28 then some (if on then 0xF#4 else 0x0#4) else rx.mem.read a := by
  have hcells : (∃ k, k < 10 ∧ a / 4 = k) ↔ a < 0x28 :=
    ⟨fun ⟨k, hk, hak⟩ => by omega, fun ha => ⟨a / 4, by omega, rfl⟩⟩
  simp only [← hcells]
  refine (Rx.read_applyAll_map_range hm hsys (fun k rx => ?_) fun k hk rx hm hsys => ?_).2
  · exact (rx.apply_data16_flags (fillCellAddr_add_four_le k) _).1
  · exact Rx.read_apply_fillCell hm hsys on hk a

theorem Rx.applyAll_fillFrames (rx : Rx) (on : Bool) :
    rx.applyAll (fillFrames on) = { rx with mem := (rx.applyAll (fillFrames on)).mem } := by
  refine Rx.applyAll_data rx (fun f hf => ?_) fun f hf code => ?_ <;> obtain ⟨k, -, rfl⟩ := List.mem_map.mp hf
  · exact (Frame.inRange_data16 _ _).mpr (fillCellAddr_add_four_le k)
  · exact Frame.noConfusion

/-! ### The obligations -/

/-- Settles O18: without clusters there are no frames; with them the first one starts and each frame clears its own
cluster. -/
theorem rstptsClearsEveryCluster : Obligations.RstptsClearsEveryCluster := by
  refine ⟨fun w hop => ?_, fun s _ hcount => ?_, fun s hready hcount => ?_, fun c rx fs hm hsys hexpand => ?_⟩
  · rw [requestFieldsStandWhereTheTableSays w, hop]; rfl
  · rw [exec_rstpts, clearFrames_of_clusterCount_eq_zero hcount, offer_empty]
  · rw [exec_rstpts, ← List.append_nil (clearFrames s.cfg), offer_clearFrames_append hready hcount, List.append_nil]
  · cases hexpand
    exact ⟨Rx.read_applyAll_clearFrames hm hsys c, rx.applyAll_clearFrames c⟩

/-- Settles O19: `SETPT` has an empty expansion, an error, or the frames of `RSTPTS` with one more behind them. -/
theorem setptClearsThenLightsOrFails : Obligations.SetptClearsThenLightsOrFails := by
  refine ⟨fun w hop => ?_, fun index s _ hcount => ?_, fun index s hready hcount hindex => ?_,
    fun index s hready hindex => ?_⟩
  · rw [requestFieldsStandWhereTheTableSays w, hop]; rfl
  · rw [exec_setpt, expandSetpt_of_clusterCount_eq_zero hcount, offer_empty]
  · rw [exec_setpt, expandSetpt_of_le hcount hindex, offer_error hready]
  · rw [exec_setpt, expandSetpt_ok hindex, offer_clearFrames_append hready (clusterCount_pos hindex)]

/-- Settles O20: the cell at address 0 is started, and the rest of the reversed cell table follows. -/
theorem fillWritesEveryCell : Obligations.FillWritesEveryCell := by
  refine ⟨fun w hop => ?_, fun on s hready => ?_⟩
  · rw [requestFieldsStandWhereTheTableSays w, hop]; rfl
  · rw [exec_fill, offer_expandFill hready, cellAddrTable_reverse_tail, List.map_map]; rfl

/-- Settles O35: what each cluster holds, read bit by bit; up to size 3 the lit nibble is a power of two. -/
theorem setptLightsExactlyOneIndicator : Obligations.SetptLightsExactlyOneIndicator := by
  intro c index rx fs hm hsys hindex hexpand
  obtain rfl := frames_of_expand_setpt hindex hexpand
  have hcluster := cluster_lt hindex
  have hread (j : Nat) (hj : j < c.clusterCount) :=
    Rx.read_cluster_applyAll_setpt hm hsys hindex (packBit (rawBit c index.toNat)) hj
  refine ⟨hread, fun a => Rx.read_other_applyAll_setpt hm hsys hindex _, (Rx.sys_applyAll_setpt _).trans hsys,
    fun hsize => ?_, fun hsize hplace => ?_⟩
  · rw [packBit_rawBit_eq_twoPow hsize] at hread ⊢
    have hp : 2 - index.toNat % c.clusterSize < 4 := by omega
    refine ⟨(index.toNat / c.clusterSize, 2 - index.toNat % c.clusterSize),
      ⟨hcluster, hp, _, hread _ hcluster, (getLsbD_ite_twoPow hp).mpr ⟨rfl, rfl⟩⟩, ?_⟩
    rintro ⟨j, b⟩ ⟨hj, -, v, hv, hbit⟩
    cases (hread j hj).symm.trans hv
    obtain ⟨rfl, rfl⟩ := (getLsbD_ite_twoPow hp).mp hbit
    rfl
  · have hvalue : packBit (rawBit c index.toNat) = 13#4 := by rw [packBit_rawBit, hsize, hplace]; rfl
    rw [hsize] at hcluster
    exact (hread _ hcluster).trans (by rw [hsize, if_pos rfl, hvalue])

/-- Settles O36, from what the ten frames together leave at every location. -/
theorem fillReachesTheCellsOnly : Obligations.FillReachesTheCellsOnly := by
  intro c on rx fs hm hsys hexpand
  rw [expand, expandFill_eq] at hexpand
  cases hexpand
  exact ⟨Rx.read_applyAll_fillFrames hm hsys on, rx.applyAll_fillFrames on⟩

end Sys2Proof.Machine
end

section
/-! SUPPORT and PROOF. Errors (60_exceptions.md): which requests fail and with which cause (R223), which have an empty
expansion (R227), and that the first error stays recorded until a reset (R222). Settles O26, O27 and O51. -/

namespace Sys2Proof.Machine

/-! ### Requests that fail or send nothing, one by one -/

theorem expandData16_eq_err_iff (addr : Addr) (value : Pattern) (k : Cause) :
    expandData16 addr value = .err k ↔ 0x3C < addr.toNat ∧ k = .addrRange := by
  by_cases haddr : 0x3C < addr.toNat
  · simp [expandData16_of_lt haddr, haddr, eq_comm]
  · simp [expandData16_of_le (Nat.le_of_not_lt haddr), haddr]

theorem expandData16_ne_empty (addr : Addr) (value : Pattern) : expandData16 addr value ≠ .ok [] := by
  unfold expandData16
  split <;> simp

theorem expandCell_eq_err_iff (pos : BitVec 4) (pattern : Pattern) (k : Cause) :
    expandCell pos pattern = .err k ↔ 10 ≤ pos.toNat ∧ k = .badCell := by
  by_cases hpos : 10 ≤ pos.toNat
  · simp [expandCell_of_le hpos, hpos, eq_comm]
  · simp [expandCell_of_lt (Nat.lt_of_not_le hpos), hpos]

theorem expandCell_ne_empty (pos : BitVec 4) (pattern : Pattern) : expandCell pos pattern ≠ .ok [] := by
  unfold expandCell
  split <;> simp

theorem expandFill_ne_empty (on : Bool) : expandFill on ≠ .ok [] := by
  simp [expandFill, cellAddrTable]

theorem expandRstpts_eq_empty_iff (c : Config) : expandRstpts c = .ok [] ↔ c.clusterCount = 0 := by
  rw [expandRstpts, Expansion.ok.injEq, ← List.length_eq_zero_iff, clearFrames_length]

/-- The three cases of an indicator's index, in the order in which they are tested (R170, R191, R224). -/
theorem indicator_cases (c : Config) (i : Nat) :
    c.clusterCount = 0 ∨ (0 < c.clusterCount ∧ c.pointCount ≤ i) ∨ (0 < c.clusterCount ∧ i < c.pointCount) := by
  omega

section
variable (c : Config) (index : BitVec 4)

theorem expandPoint_eq_err_iff (on : Bool) (k : Cause) :
    expandPoint c index on = .err k ↔ 0 < c.clusterCount ∧ c.pointCount ≤ index.toNat ∧ k = .badPoint := by
  rcases indicator_cases c index.toNat with hcount | ⟨hcount, hindex⟩ | ⟨-, hindex⟩
  · simp [expandPoint_of_clusterCount_eq_zero hcount, hcount]
  · simp [expandPoint_of_le hcount hindex, hcount, hindex, eq_comm]
  · simp [expandPoint_ok on hindex, hindex.not_ge]

theorem expandPoint_eq_empty_iff (on : Bool) : expandPoint c index on = .ok [] ↔ c.clusterCount = 0 := by
  rcases indicator_cases c index.toNat with hcount | ⟨hcount, hindex⟩ | ⟨hcount, hindex⟩
  · simp [expandPoint_of_clusterCount_eq_zero hcount, hcount]
  · simp [expandPoint_of_le hcount hindex, hcount.ne']
  · simp [expandPoint_ok on hindex, hcount.ne']

theorem expandSetpt_eq_err_iff (k : Cause) :
    expandSetpt c index = .err k ↔ 0 < c.clusterCount ∧ c.pointCount ≤ index.toNat ∧ k = .badPoint := by
  rcases indicator_cases c index.toNat with hcount | ⟨hcount, hindex⟩ | ⟨-, hindex⟩
  · simp [expandSetpt_of_clusterCount_eq_zero hcount, hcount]
  · simp [expandSetpt_of_le hcount hindex, hcount, hindex, eq_comm]
  · simp [expandSetpt_ok hindex, hindex.not_ge]

theorem expandSetpt_eq_empty_iff : expandSetpt c index = .ok [] ↔ c.clusterCount = 0 := by
  rcases indicator_cases c index.toNat with hcount | ⟨hcount, hindex⟩ | ⟨hcount, hindex⟩
  · simp [expandSetpt_of_clusterCount_eq_zero hcount, hcount]
  · simp [expandSetpt_of_le hcount hindex, hcount.ne']
  · simp [expandSetpt_ok hindex, hcount.ne']

end

/-! ### The tables of R223 and R227, over all instructions -/

/-- The table of causes: in configuration `c`, instruction `i` is listed with cause `k` (R223). -/
def ListedCause (c : Config) (i : Instr) (k : Cause) : Prop :=
  (i = .reserved ∧ k = .reservedOp)
  ∨ ((i = .dataw01 ∨ i = .dataw10) ∧ k = .badWidth)
  ∨ (∃ addr value, i = .data16 addr value ∧ 0x3C < addr.toNat ∧ k = .addrRange)
  ∨ (∃ pos pattern, (i = .cell pos pattern ∨ i = .draw pos pattern) ∧ 10 ≤ pos.toNat ∧ k = .badCell)
  ∨ (∃ index, ((∃ on, i = .point index on) ∨ i = .setpt index) ∧ 0 < c.clusterCount
      ∧ c.pointCount ≤ index.toNat ∧ k = .badPoint)

theorem expand_eq_err_iff (c : Config) (i : Instr) (k : Cause) :
    expand c i = some (.err k) ↔ ListedCause c i k := by
  unfold ListedCause
  cases i <;> simp only [expand, Option.some.injEq]
  case cmd | sysdis | sysen | lcdoff | lcdon => simp [expandCmd]
  case data4 => simp [expandData4_eq]
  case data16 addr value => simp [expandData16_eq_err_iff]
  case dataw01 | dataw10 => simp [expandDataw, eq_comm]
  case reserved => simp [expandReserved, eq_comm]
  case cell pos pattern | draw pos pattern => simp [expandCell_eq_err_iff]
  case point index on => simp [expandPoint_eq_err_iff]
  case setpt index => simp [expandSetpt_eq_err_iff]
  case rstpts => simp [expandRstpts]
  case fill | clear | lamptest => simp [expandFill]
  case frameCmd | frameData4 | frameData16 => simp

theorem expand_eq_empty_iff (c : Config) (i : Instr) : expand c i = some (.ok []) ↔
    c.clusterCount = 0 ∧ ((∃ index on, i = .point index on) ∨ (∃ index, i = .setpt index) ∨ i = .rstpts) := by
  cases i <;> simp only [expand, Option.some.injEq]
  case cmd | sysdis | sysen | lcdoff | lcdon => simp [expandCmd]
  case data4 => simp [expandData4_eq]
  case data16 addr value => simp [expandData16_ne_empty]
  case dataw01 | dataw10 => simp [expandDataw]
  case reserved => simp [expandReserved]
  case cell pos pattern | draw pos pattern => simp [expandCell_ne_empty]
  case point index on => simp [expandPoint_eq_empty_iff]
  case setpt index => simp [expandSetpt_eq_empty_iff]
  case rstpts => simp [expandRstpts_eq_empty_iff]
  case fill | clear | lamptest => simp [expandFill_ne_empty]
  case frameCmd | frameData4 | frameData16 => simp

/-! ### Recording an error (R222) -/

theorem State.recordError_eq (s : State) (c : Cause) :
    s.recordError c = { s with err := true, cause := if s.err then s.cause else c } := by
  rcases s.recordError_cases c with ⟨herr, h⟩ | ⟨herr, h⟩ <;> rw [h]
  · rw [if_pos herr, ← herr]
  · simp [herr]

section
variable {s : State}

/-- Of the expansions, only an error is recorded, and by its own cause. -/
theorem State.accept_records_iff (herr : s.err = false) (e : Expansion) (k : Cause) :
    (s.accept e).err = true ∧ (s.accept e).cause = k ↔ e = .err k := by
  rcases s.accept_cases e with ⟨c, rfl, h⟩ | ⟨rfl, h⟩ | ⟨f, fs, rfl, h⟩ <;> rw [h]
  · simp [State.recordError_eq, herr]
  · simp [herr]
  · simp [herr]

/-- An instruction records a cause exactly if it is a request whose expansion fails with that cause. -/
theorem exec_records_iff (hready : s.reqReady = true) (herr : s.err = false) (i : Instr) (k : Cause) :
    (∃ t, exec i s = .next t ∧ t.err = true ∧ t.cause = k) ↔ expand s.cfg i = some (.err k) := by
  rcases expand_or_wireFrame s.cfg i with ⟨e, he, -⟩ | ⟨f, hf, he⟩
  · simp [exec_request s rfl he, State.offered, hready, State.accept_records_iff herr, he]
  · simp [exec_wire s hf, herr, he]

/-- No move of the block but a reset clears or replaces a recorded error. -/
theorem BlockMove.keeps_error {t : State} (m : BlockMove s t) (hrst : s.input.rst = false) (herr : s.err = true) :
    t.err = true ∧ t.cause = s.cause := by
  cases m with
  | reset h => simp [hrst] at h
  | fail _ _ _ h => simp [herr] at h
  | stay | accept | wait | fall | drive | rise | nextBit | endFrame | nextFrame | finish => exact ⟨herr, rfl⟩

/-- The edge that accepts a request whose expansion fails. -/
theorem blockNext_of_expand_err {c : Cause} (hp : s.phase = .idle) (hrst : s.input.rst = false)
    (hvalid : s.input.reqValid = true) (h : expand s.cfg (decodeRequest s.input.reqWord) = some (.err c)) :
    blockNext s = s.recordError c := by
  rw [blockNext_idle_offered hp hrst hvalid, wordExpansion, h]
  rfl

end

/-! ### The obligations -/

/-- Settles O26: an instruction records the cause its expansion fails with, and the expansions that fail are those of
the table. -/
theorem causesAreRaisedExactlyAsListed : Obligations.CausesAreRaisedExactlyAsListed :=
  fun s i k hready herr => (exec_records_iff hready herr i k).trans (expand_eq_err_iff s.cfg i k)

/-- Settles O27, from the empty expansions request by request, and from what the port does with one. -/
theorem emptyExpansionsExactlyWithoutIndicators : Obligations.EmptyExpansionsExactlyWithoutIndicators := by
  refine ⟨expand_eq_empty_iff, fun i s h => ?_⟩
  rw [exec_request s rfl h, ← offer_eq, offer_empty]

/-- Settles O51: what the accepting edge records, and the moves of the block that touch the error. -/
theorem firstErrorIsKeptUntilReset : Obligations.FirstErrorIsKeptUntilReset := by
  refine ⟨fun s c hp hrst hvalid h => ⟨_, step_eq s, ?_⟩, fun s hrst herr => ⟨_, step_eq s, ?_⟩,
    fun s hrst => ⟨_, step_eq s, ?_⟩⟩
  · conv_lhs => rw [stepNext_block, blockNext_of_expand_err hp hrst hvalid h, State.recordError_eq]
  · exact (blockNext_move s).keeps_error hrst herr
  · rw [stepNext_err, stepNext_cause, blockNext_of_rst hrst]
    exact ⟨rfl, rfl⟩

end Sys2Proof.Machine
end

section
/-! SUPPORT and PROOF. Reset, boot and timing (70_reset_and_hazards.md): the reset values and the reset edge (R250,
R251), what the boot sequence makes of the receiver (R255), that the configuration is fixed (R258), and the busy cycles
of each request (R262). Settles O38, O39, O40, O52 and O60. -/

namespace Sys2Proof.Machine

/-! ### Reset (R250) -/

/-- The block in reset is the reset state but for the receiver and the inputs, which a reset does not touch. -/
theorem State.resetBlock_eq (s : State) :
    s.resetBlock = { State.resetWith s.cfg with rx := s.rx, inputs := s.inputs } := rfl

/-- Idle and without an error, the block has no bit set in its status word (R33). -/
theorem State.status_resetWith (c : Config) : (State.resetWith c).status = 0x00#8 := by
  change 0#3 ++ Cause.none.code ++ BitVec.ofBool false ++ BitVec.ofBool false = 0x00#8
  decide

/-- A cycle with a reset edge: the block's fields are those of the reset state. -/
theorem stepNext_of_rst {s : State} (h : s.input.rst = true) :
    stepNext s = { State.resetWith s.cfg with rx := (stepNext s).rx, inputs := s.inputs.tail } := by
  conv_lhs => rw [stepNext_block, blockNext_of_rst h, State.resetBlock_eq]

/-! ### The boot sequence (R255) -/

/-- The frames of the boot sequence: two commands, every cell cleared, every cluster cleared. -/
theorem framesOf_bootSequence (c : Config) :
    framesOf c bootSequence = [.cmd 0x01#8, .cmd 0x03#8] ++ (fillFrames false ++ clearFrames c) := by
  simp [framesOf, bootSequence, expand, expandFill_eq, expandCmd, expandRstpts, Expansion.frames]

/-- The receiver with the oscillator and the LCD drive on, and all else as before. -/
def Rx.switchedOn (rx : Rx) : Rx := { rx with sys := some true, lcd := some true }

/-- `SYSEN` and `LCDON` turn both flags on, whatever they were (R63). -/
theorem Rx.applyAll_sysen_lcdon (rx : Rx) : rx.applyAll [.cmd 0x01#8, .cmd 0x03#8] = rx.switchedOn := rfl

section
variable (rx : Rx) (c : Config)

theorem Rx.applyAll_boot : rx.applyAll (framesOf c bootSequence) =
    (rx.switchedOn.applyAll (fillFrames false)).applyAll (clearFrames c) := by
  rw [framesOf_bootSequence, Rx.applyAll_append, Rx.applyAll_append, Rx.applyAll_sysen_lcdon]

/-- The flags keep what the two commands made of them, since every later frame changes the memory alone. -/
theorem Rx.applyAll_boot_eq : rx.applyAll (framesOf c bootSequence) =
    { rx.switchedOn with mem := (rx.applyAll (framesOf c bootSequence)).mem } := by
  rw [Rx.applyAll_boot, Rx.applyAll_clearFrames, Rx.applyAll_fillFrames]

/-- Every location after the boot sequence: the oscillator is on before the first write, so all of them count (R64). -/
theorem Rx.read_applyAll_boot (hm : rx.mem.wf) (a : Nat) : (rx.applyAll (framesOf c bootSequence)).mem.read a =
    if a < 0x28 ∨ ∃ k, k < c.clusterCount ∧ a = 0x29 + 2 * k then some 0#4 else rx.mem.read a := by
  have hfilled : (rx.switchedOn.applyAll (fillFrames false)).sys = some true := by rw [Rx.applyAll_fillFrames]; rfl
  replace hm : rx.switchedOn.mem.wf := hm
  rw [Rx.applyAll_boot, Rx.read_applyAll_clearFrames (Rx.wf_applyAll hm _) hfilled,
    Rx.read_applyAll_fillFrames hm rfl]
  simp only [or_comm (a := a < 0x28), ite_or]
  rfl

end

/-! ### The configuration (R258) -/

theorem cfg_of_exec {i : Instr} {s t : State} (h : exec i s = .next t) : t.cfg = s.cfg := by
  rcases expand_or_wireFrame s.cfg i with ⟨e, he, -⟩ | ⟨f, hf, -⟩
  · rw [exec_request s rfl he, State.offered] at h
    obtain rfl := Host.Outcome.next.inj h
    split
    · exact s.accept_cfg e
    · rfl
  · rw [exec_wire s hf] at h
    obtain rfl := Host.Outcome.next.inj h
    exact s.setRx_cfg _

/-! ### The busy cycles of a request (R121, R262) -/

section
variable {c : Config} {fs : List Frame}

/-- Frames of one length take as many cycles each. -/
theorem requestCycles_of_length {n : Nat} (h : ∀ f ∈ fs, (frameBits f).length = n) :
    requestCycles c fs = fs.length * frameCycles c n := by
  induction fs with
  | nil => simp
  | cons f fs ih =>
    rw [requestCycles_cons, h f (by simp), ih fun g hg => h g (by simp [hg]), List.length_cons]
    ring

theorem requestCycles_single (f : Frame) : requestCycles c [f] = frameCycles c (frameBits f).length := rfl

theorem frameBits_length_of_mem_clearFrames {f : Frame} (h : f ∈ clearFrames c) : (frameBits f).length = 13 := by
  obtain ⟨k, -, rfl⟩ := List.mem_map.mp h
  exact frameBits_data4_length _ _

theorem requestCycles_append (gs : List Frame) :
    requestCycles c (fs ++ gs) = requestCycles c fs + requestCycles c gs := by
  simp [requestCycles]

theorem requestCycles_clearFrames (c : Config) :
    requestCycles c (clearFrames c) = c.clusterCount * frameCycles c 13 := by
  rw [requestCycles_of_length fun _ => frameBits_length_of_mem_clearFrames, clearFrames_length]

theorem requestCycles_fillFrames (on : Bool) : requestCycles c (fillFrames on) = 10 * frameCycles c 25 := by
  refine requestCycles_of_length (n := 25) fun f hf => ?_
  obtain ⟨k, -, rfl⟩ := List.mem_map.mp hf
  exact frameBits_data16_length _ _

/-- A `DATA16` that does not fail is one 16-bit frame (R144). -/
theorem requestCycles_of_expand_data16 {addr : Addr} {value : Pattern}
    (h : expand c (.data16 addr value) = some (.ok fs)) : requestCycles c fs = frameCycles c 25 := by
  rcases Nat.lt_or_ge 0x3C addr.toNat with haddr | haddr
  · rw [expand, expandData16_of_lt haddr] at h
    cases h
  · rw [expand, expandData16_of_le haddr] at h
    cases h
    rw [requestCycles_single, frameBits_data16_length]

/-- A `CELL` that does not fail is one 16-bit frame (R169). -/
theorem requestCycles_of_expand_cell {pos : BitVec 4} {pattern : Pattern}
    (h : expand c (.cell pos pattern) = some (.ok fs)) : requestCycles c fs = frameCycles c 25 := by
  rcases Nat.lt_or_ge pos.toNat 10 with hpos | hpos
  · rw [expand, expandCell_of_lt hpos] at h
    cases h
    rw [requestCycles_single, frameBits_data16_length]
  · rw [expand, expandCell_of_le hpos] at h
    cases h

section
variable {index : BitVec 4} (hcount : 0 < c.clusterCount)
include hcount

/-- With indicators, a `POINT` that does not fail is one 4-bit frame (R170). -/
theorem requestCycles_of_expand_point {on : Bool} (h : expand c (.point index on) = some (.ok fs)) :
    requestCycles c fs = frameCycles c 13 := by
  rcases Nat.lt_or_ge index.toNat c.pointCount with hindex | hindex
  · rw [expand, expandPoint_ok on hindex] at h
    cases h
    rw [requestCycles_single, frameBits_data4_length]
  · rw [expand, expandPoint_of_le hcount hindex] at h
    cases h

/-- With indicators, a `SETPT` that does not fail clears every cluster and writes one more frame (R191). -/
theorem requestCycles_of_expand_setpt (h : expand c (.setpt index) = some (.ok fs)) :
    requestCycles c fs = (c.clusterCount + 1) * frameCycles c 13 := by
  rcases Nat.lt_or_ge index.toNat c.pointCount with hindex | hindex
  · rw [frames_of_expand_setpt hindex h, requestCycles_append, requestCycles_clearFrames, requestCycles_single,
      frameBits_data4_length, Nat.succ_mul]
  · rw [expand, expandSetpt_of_le hcount hindex] at h
    cases h

end

end

/-! ### The obligations -/

/-- Settles O38: the words by evaluation, the flags and the locations from the frames of the four requests. -/
theorem bootSequenceMakesTheMapKnown : Obligations.BootSequenceMakesTheMapKnown := by
  refine ⟨rfl, fun c rx hm => ⟨?_, ?_, rx.read_applyAll_boot c hm⟩⟩ <;> rw [rx.applyAll_boot_eq c] <;> rfl

/-- Settles O40: the block is in reset after the edge, and the receiver, with chip-select high, only samples. -/
theorem resetEdgeResetsTheBlockOnly : Obligations.ResetEdgeResetsTheBlockOnly :=
  fun s hrst => ⟨stepNext s, step_eq s, stepNext_of_rst hrst,
    fun hcs hprev hpow => stepNext_content (hprev.trans hcs.symm) hpow (.inl hcs)⟩

/-- Settles O52: a step's next state is that of the block's edge, and an instruction is a request or a wire frame. -/
theorem configurationNeverChanges : Obligations.ConfigurationNeverChanges := by
  refine ⟨fun s t h => ?_, fun _ _ _ => cfg_of_exec⟩
  rw [step_eq] at h
  obtain rfl := Host.Outcome.next.inj h
  exact stepNext_cfg s

/-- Settles O60, request by request from the frames of its expansion. -/
theorem busyCyclesOfEachRequest : Obligations.BusyCyclesOfEachRequest := by
  refine ⟨fun c i fs h => ⟨?_, ?_, ?_, ?_, ?_, ?_, ?_, ?_⟩, fun c i e _ he => by rw [he, requestCycles_nil], rfl, rfl,
    rfl⟩
  · rintro ⟨code, rfl⟩
    cases h
    rw [requestCycles_single, frameBits_cmd_length]
  · rintro ⟨addr, nib, rfl⟩
    rw [expand, expandData4_eq] at h
    cases h
    rw [requestCycles_single, frameBits_data4_length]
  · rintro ⟨addr, value, rfl⟩
    exact requestCycles_of_expand_data16 h
  · rintro ⟨pos, pattern, rfl⟩
    exact requestCycles_of_expand_cell h
  · rintro ⟨index, on, rfl⟩ hcount
    exact requestCycles_of_expand_point hcount h
  · rintro rfl
    cases h
    exact requestCycles_clearFrames c
  · rintro ⟨index, rfl⟩ hcount
    exact requestCycles_of_expand_setpt hcount h
  · rintro ⟨on, rfl⟩
    rw [expand, expandFill_eq] at h
    cases h
    exact requestCycles_fillFrames on

/-- Settles O39: each value is read off the reset state, and in `IDLE` `req_ready` is `rst` inverted. -/
theorem resetValues : Obligations.ResetValues :=
  fun c => ⟨rfl, rfl, rfl, rfl, rfl, rfl, rfl, rfl, rfl, rfl, rfl, State.status_resetWith c, fun _ => rfl⟩

end Sys2Proof.Machine
end

section
/-! SUPPORT and PROOF. The words and frames written out in 95_test_vectors.md: a word decodes to the request whose
encoding it agrees with on the used bits (R82, R83), and the bits of a frame decode to that frame (R63, R64).
Settles O1. -/

namespace Sys2Proof.Machine

/-- A word that differs from a request's encoding in unused bits only decodes to that request (R83). -/
theorem decodeRequest_of_agrees_with_encode {i : Instr} {w w' : Word} (hencode : encode i = .request w)
    (hagree : w' &&& i.core.usedBits = w &&& i.core.usedBits) : decodeRequest w' = i.core := by
  have hdecode := decodeRequest_of_encode hencode
  rw [← hdecode] at hagree ⊢
  exact decodeRequest_eq_of_and_usedBits_eq hagree

/-- Settles O1: nine of the words are the encodings of their requests, three differ from one in unused bits, and the
wire bits are those of frames inside the memory. -/
theorem specWordsDecode : Obligations.SpecWordsDecode :=
  ⟨decodeRequest_of_encode (i := .cmd 0x01#8) rfl,
    decodeRequest_of_agrees_with_encode (i := .cmd 0x03#8) rfl rfl,
    decodeRequest_of_agrees_with_encode (i := .data4 0x29#6 0x5#4) rfl rfl,
    decodeRequest_of_encode (i := .data16 0x24#6 0xFFFF#16) rfl,
    decodeRequest_of_encode (i := .dataw01) rfl,
    decodeRequest_of_encode (i := .dataw10) rfl,
    decodeRequest_of_encode (i := .cell 0#4 0x1234#16) rfl,
    decodeRequest_of_encode (i := .point 4#4 true) rfl,
    decodeRequest_of_encode (i := .rstpts) rfl,
    decodeRequest_of_encode (i := .setpt 7#4) rfl,
    decodeRequest_of_encode (i := .fill true) rfl,
    decodeRequest_of_agrees_with_encode (i := .reserved) rfl rfl,
    decodeFrame_frameBits (f := .cmd 0xAA#8) rfl,
    decodeFrame_frameBits (f := .data4 0x29#6 0x2#4) rfl,
    decodeFrame_frameBits (f := .data16 0x3C#6 0xA5C3#16) rfl⟩

end Sys2Proof.Machine
end
